-- ==== Sys2Proof/Word.lean ====
section
/-! DEFINITION. The word types of QLE (00_scope.md R7, R8). -/

namespace Sys2Proof

/-- A byte: 8 bits (00_scope.md R7, R9). -/
abbrev Byte := BitVec 8

/-- A quad: an unsigned 2-bit value in [0,3] (40_symbol_codec.md R58). -/
abbrev Quad := BitVec 2

/-- A 32-bit value: a command word or a 32-bit register (00_scope.md R8). -/
abbrev Word := BitVec 32

/-- A 64-bit value: a 64-bit register or a frame's length field (00_scope.md R8). -/
abbrev DWord := BitVec 64

end Sys2Proof
end

