-- ==== Sys2Proof/Syntax.lean ====
section
/-! DEFINITION. The six commands of QLE (30_encoding.md R49, R50; spec/opcode_table.json), one constructor per row. -/

namespace Sys2Proof

/-- A decoded command. Its only operands are the two fields of the command word that carry one: PB, an unsigned number
used as padBlock (30_encoding.md R52), and E, used as a Boolean (30_encoding.md R51). -/
inductive Instr where
  /-- SER: serialize IN into Q with padBlock pb (40_symbol_codec.md R66). -/
  | ser (pb : Nat)
  /-- DES: deserialize Q into OUT (40_symbol_codec.md R67). -/
  | des
  /-- PWR: write Q into the carrier (42_lsb_embedder.md R78). -/
  | pwr
  /-- PRD: read the carrier into Q (42_lsb_embedder.md R79). -/
  | prd
  /-- HIDE: embed a framed payload; encrypted selects the magic (42_lsb_embedder.md R80). -/
  | hide (encrypted : Bool)
  /-- EXTR: extract a framed payload (42_lsb_embedder.md R81). -/
  | extr
  deriving DecidableEq, Repr

end Sys2Proof
end

