-- ==== Sys2Proof/WellFormed.lean ====
section
/-! DEFINITION. Which commands a command word can carry. -/

namespace Sys2Proof

/-- The operand of SER fits the 8-bit field PB, values 0 to 255 (30_encoding.md R52). PB = 0 is encodable: it decodes
to SER, whose rule raises ParamError. Every other command is always encodable. -/
def Instr.wellFormed : Instr → Bool
  | .ser pb => decide (pb < 256)
  | .des => true
  | .pwr => true
  | .prd => true
  | .hide _ => true
  | .extr => true

/-- The check as a proposition. -/
abbrev WellFormed (i : Instr) : Prop := i.wellFormed = true

end Sys2Proof
end

