-- ==== Sys2Proof/Decode.lean ====
section
/-! DEFINITION. The command decoder (30_encoding.md R53) and the encoder (30_encoding.md R49, R56). -/

namespace Sys2Proof

/-- Why a command word is illegal (30_encoding.md R53, R54): the first failing check, by name. -/
inductive DecodeError where
  /-- OP is 0x0 or 0x7 to 0xF. -/
  | reservedOp
  /-- Bits 31:16 or bits 7:5 are not zero. -/
  | reservedBits
  /-- E is set in a command other than HIDE. -/
  | encOutsideHide
  /-- PB is not zero in a command other than SER. -/
  | pbOutsideSer
  deriving DecidableEq, Repr

/-- The operations of the opcode map (30_encoding.md R50). -/
inductive Op where
  | ser | des | pwr | prd | hide | extr
  deriving DecidableEq, Repr

/-- Field OP, bits 3:0 (30_encoding.md R49). -/
def fieldOp (w : Word) : BitVec 4 := w.extractLsb' 0 4

/-- Field E, bit 4 (30_encoding.md R49, R51). -/
def fieldE (w : Word) : Bool := w.getLsbD 4

/-- Field RES0, bits 7:5 (30_encoding.md R49). -/
def fieldRes0 (w : Word) : BitVec 3 := w.extractLsb' 5 3

/-- Field PB, bits 15:8 (30_encoding.md R49, R52). -/
def fieldPB (w : Word) : BitVec 8 := w.extractLsb' 8 8

/-- Field RES1, bits 31:16 (30_encoding.md R49). -/
def fieldRes1 (w : Word) : BitVec 16 := w.extractLsb' 16 16

/-- The opcode map (30_encoding.md R50); 0x0 and 0x7 to 0xF are reserved. -/
def opOfCode (code : BitVec 4) : Option Op :=
  match code.toNat with
  | 1 => some .ser
  | 2 => some .des
  | 3 => some .pwr
  | 4 => some .prd
  | 5 => some .hide
  | 6 => some .extr
  | _ => none

/-- The command of an operation with the operand fields it uses (30_encoding.md R51, R52). -/
def instrOfOp (op : Op) (e : Bool) (pb : Nat) : Instr :=
  match op with
  | .ser => .ser pb
  | .des => .des
  | .pwr => .pwr
  | .prd => .prd
  | .hide => .hide e
  | .extr => .extr

/-- The decoder, its checks in the order of 30_encoding.md R53. -/
def decode (w : Word) : Except DecodeError Instr :=
  match opOfCode (fieldOp w) with
  | none => .error .reservedOp
  | some op =>
    if fieldRes1 w ≠ 0#16 ∨ fieldRes0 w ≠ 0#3 then .error .reservedBits
    else if fieldE w = true ∧ op ≠ .hide then .error .encOutsideHide
    else if fieldPB w ≠ 0#8 ∧ op ≠ .ser then .error .pbOutsideSer
    else .ok (instrOfOp op (fieldE w) (fieldPB w).toNat)

/-- The command word of a well-formed command (30_encoding.md R49, R50, R56). -/
def encode : Instr → Word
  | .ser pb => 0x00000001#32 ||| (BitVec.ofNat 32 pb <<< 8)
  | .des => 0x00000002#32
  | .pwr => 0x00000003#32
  | .prd => 0x00000004#32
  | .hide encrypted => if encrypted then 0x00000015#32 else 0x00000005#32
  | .extr => 0x00000006#32

/-- The command the decoder reads from a table row's word of nbits bits; the bits above nbits are zero, and a word of
more than 32 bits is no command (30_encoding.md R55). -/
def decodeTableWord (nbits w : Nat) : Option Instr :=
  if w % 2 ^ nbits < 2 ^ 32 then
    match decode (BitVec.ofNat 32 (w % 2 ^ nbits)) with
    | .ok i => some i
    | .error _ => none
  else none

end Sys2Proof
end

