-- ==== Sys2Proof/Machine/Codec.lean ====
section
/-! DEFINITION. The symbol codec's pure functions (40_symbol_codec.md sections 1 and 2). -/

namespace Sys2Proof.Machine

/-- ByteToQuads (40_symbol_codec.md R59): bits 7:6, 5:4, 3:2, 1:0. -/
def byteToQuads (b : Byte) : List Quad :=
  [b.extractLsb' 6 2, b.extractLsb' 4 2, b.extractLsb' 2 2, b.extractLsb' 0 2]

/-- QuadsToByte (40_symbol_codec.md R60): (q0<<6)|(q1<<4)|(q2<<2)|q3. -/
def quadsToByte (q0 q1 q2 q3 : Quad) : Byte :=
  (q0.setWidth 8 <<< 6) ||| (q1.setWidth 8 <<< 4) ||| (q2.setWidth 8 <<< 2) ||| q3.setWidth 8

/-- The number z of zero-quads that pad a stream of n quads to a multiple of p (40_symbol_codec.md R61). -/
def padCount (n p : Nat) : Nat := (p - n % p) % p

/-- ceil(n / p) · p, the smallest multiple of p that is at least n, for p ≥ 1 (40_symbol_codec.md R62). -/
def paddedLength (n p : Nat) : Nat := (n + p - 1) / p * p

/-- Serialize(bs, p) for p ≥ 1 (40_symbol_codec.md R61). -/
def serialize (bs : List Byte) (p : Nat) : List Quad :=
  bs.flatMap byteToQuads ++ List.replicate (padCount (bs.flatMap byteToQuads).length p) 0#2

/-- Deserialize(qs): one byte per group of four quads; a partial group is dropped (40_symbol_codec.md R63). -/
def deserialize : List Quad → List Byte
  | q0 :: q1 :: q2 :: q3 :: rest => quadsToByte q0 q1 q2 q3 :: deserialize rest
  | _ => []

end Sys2Proof.Machine
end

