-- ==== Sys2Proof/Config.lean ====
section
/-! DEFINITION. The implementation parameters of QLE (00_scope.md R6, 10_state.md R36) and the one value
the spec does not state. -/

namespace Sys2Proof

/-- The parameters a QLE instance is built with (00_scope.md R6): configuration, fixed for an instance, readable
by no register, changed by nothing (10_state.md R36). -/
structure Config where
  /-- MAXB: capacity in bytes of IN and of OUT. -/
  maxB : Nat
  /-- MAXQ: capacity in quads of Q. -/
  maxQ : Nat
  /-- MAXPIX: pixels in the pixel memory, which holds 3·MAXPIX bytes. -/
  maxPix : Nat
  /-- STRICT_GROUPS: DES refuses a quad count that is not a multiple of 4. -/
  strictGroups : Bool
  deriving DecidableEq, Repr

/-- The constraints of 00_scope.md R6 on the parameters. -/
abbrev Config.wf (c : Config) : Prop :=
  1 ≤ c.maxB ∧ c.maxB < 2 ^ 64 - 12 ∧ 48 ≤ c.maxQ ∧ 16 ≤ c.maxPix ∧ c.maxPix < 2 ^ 64

/-- The instance State.reset carries: the default configuration of 95_test_vectors.md section 2.
DESIGN CHOICE (log 2): the spec fixes no instance. -/
def Config.default : Config :=
  { maxB := 4096, maxQ := 16384, maxPix := 4096, strictGroups := false }

/-- FREE VALUE (log 8): what a 64-bit length register reads when its buffer holds n ≥ 2^64 elements, which R6 does not
rule out for Q. Nothing constrains it. -/
opaque Config.unstatedLength : Nat → DWord

end Sys2Proof
end

