-- ==== Sys2Proof/Machine/State.lean ====
section
/-! DEFINITION. The state of QLE and of its host (10_state.md), the reasons a step can stop, and reset
(70_reset_and_hazards.md R100). -/

namespace Sys2Proof.Machine

/-- Why the machine stops with a fault. -/
inductive Fault where
  /-- UnwrittenPixel (60_exceptions.md R93): PWR, PRD, HIDE, EXTR or a host read of PIX reads a byte that holds no
  value. Safe: the chip returns some byte there (log 7). -/
  | unwrittenPixel
  deriving DecidableEq, Repr

/-- Why the model has no meaning for a step. Every host access among them is refused by the spec (10_state.md R35,
60_exceptions.md R93). All are safe: a run that is refused proves nothing. -/
inductive Refusal where
  /-- An instruction without a meaning; raised by no arm of this model. Safe. -/
  | notModelled (mnemonic : String)
  /-- A host read of CMD or of a reserved index (10_state.md R18, R35). Safe. -/
  | registerNotReadable (index : Nat)
  /-- A host write of a read-only register or of a reserved index (10_state.md R35). Safe. -/
  | registerNotWritable (index : Nat)
  /-- A host write of a value wider than its register (10_state.md R33, R35). Safe. -/
  | valueTooWide (index : Nat)
  /-- A host load longer than the buffer's capacity (10_state.md R33, R35). Safe. -/
  | loadTooLong
  /-- A host access to a pixel address at or above 3·MAXPIX (10_state.md R33, R35). Safe. -/
  | noSuchPixel (address : Nat)
  deriving DecidableEq, Repr

/-- The command errors of 60_exceptions.md R85, except InvalidPassword, which QLE never raises (R92). -/
inductive ErrorKind where
  | capacityExceeded
  | noHiddenData
  | truncatedFrame
  | illegalCommand
  | paramError
  | overflow
  deriving DecidableEq, Repr

/-- The host's actions (10_state.md R33) and the reset event (70_reset_and_hazards.md R100). -/
inductive HostAction where
  /-- HostWriteReg(i, v); a write of index 0x0 (CMD) issues the command v. -/
  | writeReg (index value : Nat)
  /-- HostReadReg(i). -/
  | readReg (index : Nat)
  /-- HostLoadIN(s). -/
  | loadIN (bytes : List Byte)
  /-- HostLoadQ(s). -/
  | loadQ (quads : List Quad)
  /-- HostReadIN(). -/
  | readIN
  /-- HostReadQ(). -/
  | readQ
  /-- HostReadOUT(). -/
  | readOUT
  /-- HostWritePix(a, v). -/
  | writePix (address : Nat) (value : Byte)
  /-- HostReadPix(a). -/
  | readPix (address : Nat)
  /-- The reset event. -/
  | reset
  deriving DecidableEq, Repr

/-- What a host read returns (10_state.md R33). -/
inductive HostReply where
  | register (index value : Nat)
  | bytes (contents : List Byte)
  | quads (contents : List Quad)
  | pixel (address : Nat) (value : Byte)
  deriving DecidableEq, Repr

/-- The pixel memory PIX (10_state.md R27): the bytes that hold a value, as (address, byte) pairs with rising addresses.
An address not listed holds no value (10_state.md R28). -/
abbrev Memory := List Host.Cell

/-- The whole state. CMD has no storage (10_state.md R18); CAP, INLEN, QLEN and OUTLEN are computed from the fields
below when they are read (10_state.md R23 to R26). -/
structure State where
  /-- STATUS: ERR in bits 3:0, ENCF in bit 4, the rest reserved (10_state.md R19). -/
  status : Word
  /-- WIDTH (10_state.md R20). -/
  width : Word
  /-- HEIGHT (10_state.md R20). -/
  height : Word
  /-- QCNT (10_state.md R21). -/
  qcnt : DWord
  /-- MAGIC (10_state.md R22). -/
  magic : Word
  /-- LEN (10_state.md R22). -/
  len : DWord
  /-- The buffer IN (10_state.md R24). -/
  inBuf : List Byte
  /-- The buffer Q (10_state.md R25). -/
  q : List Quad
  /-- The buffer OUT (10_state.md R26). -/
  out : List Byte
  /-- The pixel memory PIX (10_state.md R27, R28). -/
  pix : Memory
  /-- The instance's parameters (10_state.md R36). DESIGN CHOICE (log 1): carried here, changed by no step. -/
  config : Config
  /-- The host's pending actions, oldest first (10_state.md R33, R45). DESIGN CHOICE (log 3). -/
  hostActions : List HostAction
  /-- What the host's reads returned, oldest first (10_state.md R33). DESIGN CHOICE (log 5). -/
  hostReplies : List HostReply
  deriving DecidableEq, Repr

/-- The outcome of a step of this machine. -/
abbrev Out := Host.Outcome State Fault Refusal

/-- The machine right after reset (70_reset_and_hazards.md R100): every register 0, every buffer empty, no PIX byte
with a value. The last three fields are the model's own (log 2, log 3, log 5). -/
def State.reset : State :=
  { status := 0#32, width := 0#32, height := 0#32, qcnt := 0#64, magic := 0#32, len := 0#64,
    inBuf := [], q := [], out := [], pix := [],
    config := Config.default, hostActions := [], hostReplies := [] }

end Sys2Proof.Machine
end

