-- ==== Sys2Proof/Machine/Flags.lean ====
section
/-! DEFINITION. The fields of STATUS (10_state.md R19) and the error codes (60_exceptions.md R85). -/

namespace Sys2Proof.Machine

/-- The code of an error kind (60_exceptions.md R85). -/
def ErrorKind.code : ErrorKind → BitVec 4
  | .capacityExceeded => 1#4
  | .noHiddenData => 2#4
  | .truncatedFrame => 3#4
  | .illegalCommand => 4#4
  | .paramError => 5#4
  | .overflow => 6#4

/-- ERR after a command that succeeded (60_exceptions.md R85). -/
def successCode : BitVec 4 := 0#4

/-- STATUS with ERR replaced, every other bit kept (10_state.md R19). -/
def statusWithErr (status : Word) (code : BitVec 4) : Word := (status &&& 0xFFFFFFF0#32) ||| code.setWidth 32

/-- STATUS with ENCF replaced, every other bit kept (10_state.md R19). -/
def statusWithEncf (status : Word) (e : Bool) : Word :=
  (status &&& 0xFFFFFFEF#32) ||| (if e then 0x00000010#32 else 0#32)

/-- STATUS.ERR (10_state.md R19). -/
def State.err (s : State) : BitVec 4 := s.status.extractLsb' 0 4

/-- STATUS.ENCF (10_state.md R19). -/
def State.encf (s : State) : Bool := s.status.getLsbD 4

end Sys2Proof.Machine
end

