-- ==== Sys2Proof/Machine/Frame.lean ====
section
/-! DEFINITION. The LSB frame and the magic registry (41_lsb_frame.md). -/

namespace Sys2Proof.Machine

/-- The registry's unencryptedLSB (41_lsb_frame.md R68). -/
def magicUnencryptedLSB : Word := 0xDEADC0DE#32

/-- The registry's encryptedLSB (41_lsb_frame.md R68). -/
def magicEncryptedLSB : Word := 0x1337C0DE#32

/-- The registry's unencrypted, of the trailer mode (41_lsb_frame.md R68); no command uses it. -/
def magicUnencryptedTrailer : Word := 0x5AFEC0DE#32

/-- The registry's encrypted, of the trailer mode (41_lsb_frame.md R68); no command uses it. -/
def magicEncryptedTrailer : Word := 0xBABEC0DE#32

/-- MagicFor(E) (41_lsb_frame.md R69). -/
def magicFor (encrypted : Bool) : Word := if encrypted then magicEncryptedLSB else magicUnencryptedLSB

/-- IsLSBMagic(m) (41_lsb_frame.md R69). -/
def isLSBMagic (m : Word) : Bool := m == magicUnencryptedLSB || m == magicEncryptedLSB

/-- EncOf(m) (41_lsb_frame.md R69). -/
def encOf (m : Word) : Bool := m == magicEncryptedLSB

/-- BE_n(v): byte i is (v >> 8(n−1−i)) & 0xFF (00_scope.md R11). -/
def bigEndian (n v : Nat) : List Byte :=
  (List.range n).map fun i => BitVec.ofNat 8 (v >>> (8 * (n - 1 - i)))

/-- BEval(s): the sum of s[i]·2^(8(len(s)−1−i)), by Horner's scheme (00_scope.md R11). -/
def bigEndianValue (s : List Byte) : Nat := s.foldl (fun acc b => acc * 256 + b.toNat) 0

/-- BuildFrameLSB(magic, payload): BE_4(magic) ++ BE_8(len(payload)) ++ payload (41_lsb_frame.md R70). -/
def buildFrameLSB (magic : Word) (payload : List Byte) : List Byte :=
  bigEndian 4 magic.toNat ++ bigEndian 8 payload.length ++ payload

/-- The framed size F = 12 + N of an N-byte payload (41_lsb_frame.md R70). -/
def framedSize (n : Nat) : Nat := 12 + n

/-- ParseHeaderLSB(h) = (BEval(h[0..4)), BEval(h[4..12))) for a 12-byte h (41_lsb_frame.md R71). -/
def parseHeaderLSB (h : List Byte) : Word × DWord :=
  (BitVec.ofNat 32 (bigEndianValue (h.take 4)), BitVec.ofNat 64 (bigEndianValue ((h.drop 4).take 8)))

end Sys2Proof.Machine
end

