-- ==== Sys2Proof/Machine/Memory.lean ====
section
/-! DEFINITION. The pixel memory's one-byte accesses (00_scope.md R12, 20_memory.md R41) and its canonical form. -/

namespace Sys2Proof.Machine

/-- MemRead(a, 1): the byte at address a, or none where no byte holds a value (10_state.md R28). -/
def Memory.read : Memory → Nat → Option Byte
  | [], _ => none
  | (b, v) :: rest, a => if b = a then some v else Memory.read rest a

/-- MemWrite(a, 1, v): address a holds v afterwards; the list stays in rising order. -/
def Memory.write : Memory → Nat → Byte → Memory
  | [], a, v => [(a, v)]
  | (b, w) :: rest, a, v =>
    if a < b then (a, v) :: (b, w) :: rest
    else if a = b then (a, v) :: rest
    else (b, w) :: Memory.write rest a v

/-- The canonical form: strictly rising addresses. An unlisted address reads as no value, which no entry equals. -/
abbrev Memory.wf (m : Memory) : Prop := m.Pairwise fun x y => x.1 < y.1

/-- No byte at or above address n holds a value. -/
abbrev Memory.below (m : Memory) (n : Nat) : Prop := ∀ c ∈ m, c.1 < n

end Sys2Proof.Machine
end

