-- ==== Sys2Proof/Machine/Operands.lean ====
section
/-! DEFINITION. The operands of the pixel commands: the grid, its capacity, the raster map and the channel functions
(20_memory.md R40, 42_lsb_embedder.md sections 1 and 2). -/

namespace Sys2Proof.Machine

/-- PixAddr(x, y, c) = 3·(y·W + x) + c (20_memory.md R40). -/
def pixAddr (w x y c : Nat) : Nat := 3 * (y * w + x) + c

/-- The PIX address of quad k on a carrier of width w: pixel k div 3 in raster order, channel k mod 3
(42_lsb_embedder.md R73). By R74 it is k; the commands' pseudocode uses k itself. -/
def rasterAddr (w k : Nat) : Nat := pixAddr w (k / 3 % w) (k / 3 / w) (k % 3)

/-- ChanWrite(v, q) = (v & 0xFC) | q (42_lsb_embedder.md R75). -/
def chanWrite (v : Byte) (q : Quad) : Byte := (v &&& 0xFC#8) ||| q.setWidth 8

/-- ChanRead(v) = v[1:0] (42_lsb_embedder.md R76). -/
def chanRead (v : Byte) : Quad := v.extractLsb' 0 2

/-- Cap(W, H) = floor(W·H·6/8) bytes (42_lsb_embedder.md R77). -/
def capacity (w h : Nat) : Nat := w * h * 6 / 8

/-- W·H, the pixels of the current grid. -/
def State.gridPixels (s : State) : Nat := s.width.toNat * s.height.toNat

/-- 3·W·H, the channels of the current grid, which are the PIX addresses it occupies (20_memory.md R40). -/
def State.gridChannels (s : State) : Nat := 3 * s.gridPixels

/-- floor(W·H·6/8) of the current grid, which is what CAP reads (10_state.md R23). -/
def State.cap (s : State) : Nat := capacity s.width.toNat s.height.toNat

end Sys2Proof.Machine
end

