-- ==== Sys2Proof/Machine/Ops.lean ====
section
/-! DEFINITION. The operations the commands share: register and buffer writes, the end of a command with and without an
error, and the passes over the pixel memory. -/

namespace Sys2Proof.Machine

/-- STATUS.ERR <- code. -/
def State.setErr (s : State) (code : BitVec 4) : State := { s with status := statusWithErr s.status code }

/-- STATUS.ENCF <- e. -/
def State.setEncf (s : State) (e : Bool) : State := { s with status := statusWithEncf s.status e }

/-- MAGIC <- magic and LEN <- len, which are only ever written together (10_state.md R22). -/
def State.setFrame (s : State) (magic : Word) (len : DWord) : State := { s with magic := magic, len := len }

/-- WIDTH <- v (10_state.md R20). -/
def State.setWidth (s : State) (v : Word) : State := { s with width := v }

/-- HEIGHT <- v (10_state.md R20). -/
def State.setHeight (s : State) (v : Word) : State := { s with height := v }

/-- QCNT <- v (10_state.md R21). -/
def State.setQcnt (s : State) (v : DWord) : State := { s with qcnt := v }

/-- IN <- bytes, as a whole; INLEN follows (00_scope.md R12). -/
def State.setIn (s : State) (bytes : List Byte) : State := { s with inBuf := bytes }

/-- Q <- quads, as a whole; QLEN follows (00_scope.md R12). -/
def State.setQ (s : State) (quads : List Quad) : State := { s with q := quads }

/-- OUT <- bytes, as a whole; OUTLEN follows (00_scope.md R12). -/
def State.setOut (s : State) (bytes : List Byte) : State := { s with out := bytes }

/-- PIX replaced by the memory a pass over it left. -/
def State.setPix (s : State) (m : Memory) : State := { s with pix := m }

/-- The host's pending actions replaced. -/
def State.setActions (s : State) (actions : List HostAction) : State := { s with hostActions := actions }

/-- The host receives the result of a read. -/
def State.reply (s : State) (r : HostReply) : State := { s with hostReplies := s.hostReplies ++ [r] }

/-- Error entry, for every error of every command (60_exceptions.md R95; 00_scope.md R12 `raise`): STATUS.ERR gets the
kind's code, the command ends, nothing else changes. There is no return from an error (R96): the next CMD write runs
whatever ERR holds. -/
def raise (kind : ErrorKind) (s : State) : Out := .next (s.setErr kind.code)

/-- The end of a command whose checks passed: STATUS.ERR <- 0, over the writes already made in s. -/
def succeed (s : State) : Out := .next (s.setErr successCode)

/-- [ChanRead(MemRead(k, 1)) for k = start .. start+n−1], or none where one of these bytes holds no value
(42_lsb_embedder.md R79, R81). -/
def readQuads (m : Memory) : (start n : Nat) → Option (List Quad)
  | _, 0 => some []
  | start, n + 1 =>
    match Memory.read m start with
    | none => none
    | some v =>
      match readQuads m (start + 1) n with
      | none => none
      | some rest => some (chanRead v :: rest)

/-- MemWrite(k, 1, ChanWrite(MemRead(k, 1), s[k − start])) for k from start on, one quad per address, or none where one
of these bytes holds no value (42_lsb_embedder.md R78, R80). -/
def writeQuads (m : Memory) : (start : Nat) → List Quad → Option Memory
  | _, [] => some m
  | start, q :: rest =>
    match Memory.read m start with
    | none => none
    | some v => writeQuads (Memory.write m start (chanWrite v q)) (start + 1) rest

end Sys2Proof.Machine
end

