-- ==== Sys2Proof/Machine/LsbEmbedder.lean ====
section
/-! DEFINITION. The meanings of PWR, PRD, HIDE and EXTR (42_lsb_embedder.md sections 3 to 6). -/

namespace Sys2Proof.Machine

/-- PWR (42_lsb_embedder.md R78). -/
def execPwr (s : State) : Out :=
  if s.gridPixels > s.config.maxPix then raise .paramError s
  else if s.q.length % 3 ≠ 0 then raise .paramError s
  else if s.q.length > s.gridChannels then raise .capacityExceeded s
  else
    match writeQuads s.pix 0 s.q with
    | none => .fault .unwrittenPixel
    | some m => succeed (s.setPix m)

/-- PRD (42_lsb_embedder.md R79). -/
def execPrd (s : State) : Out :=
  if s.gridPixels > s.config.maxPix then raise .paramError s
  else if s.qcnt.toNat > s.gridChannels then raise .truncatedFrame s
  else if s.qcnt.toNat > s.config.maxQ then raise .overflow s
  else
    match readQuads s.pix 0 s.qcnt.toNat with
    | none => .fault .unwrittenPixel
    | some quads => succeed (s.setQ quads)

/-- HIDE (42_lsb_embedder.md R80). -/
def execHide (encrypted : Bool) (s : State) : Out :=
  if s.gridPixels > s.config.maxPix then raise .paramError s
  else if framedSize s.inBuf.length > s.cap then raise .capacityExceeded s
  else
    match writeQuads s.pix 0 (serialize (buildFrameLSB (magicFor encrypted) s.inBuf) 3) with
    | none => .fault .unwrittenPixel
    | some m =>
      succeed (((s.setPix m).setFrame (magicFor encrypted) (BitVec.ofNat 64 s.inBuf.length)).setEncf encrypted)

/-- EXTR once the header is read: the checks and writes that follow `(magic, L) <- ParseHeaderLSB(…)`
(42_lsb_embedder.md R81). -/
def extractPayload (magic : Word) (len : DWord) (s : State) : Out :=
  if isLSBMagic magic = false then raise .noHiddenData s
  else if 48 + 4 * len.toNat > s.gridChannels then raise .truncatedFrame s
  else if len.toNat > s.config.maxB then raise .overflow s
  else
    match readQuads s.pix 48 (4 * len.toNat) with
    | none => .fault .unwrittenPixel
    | some quads => succeed (((s.setOut (deserialize quads)).setFrame magic len).setEncf (encOf magic))

/-- EXTR (42_lsb_embedder.md R81). -/
def execExtr (s : State) : Out :=
  if s.gridPixels > s.config.maxPix then raise .paramError s
  else if s.gridChannels < 48 then raise .noHiddenData s
  else
    match readQuads s.pix 0 48 with
    | none => .fault .unwrittenPixel
    | some header =>
      extractPayload (parseHeaderLSB (deserialize header)).1 (parseHeaderLSB (deserialize header)).2 s

end Sys2Proof.Machine
end

