-- ==== Sys2Proof/Machine/SymbolCodec.lean ====
section
/-! DEFINITION. The meanings of SER and DES (40_symbol_codec.md sections 3 and 4). -/

namespace Sys2Proof.Machine

/-- SER (40_symbol_codec.md R66). -/
def execSer (pb : Nat) (s : State) : Out :=
  if pb = 0 then raise .paramError s
  else if paddedLength (4 * s.inBuf.length) pb > s.config.maxQ then raise .overflow s
  else succeed (s.setQ (serialize s.inBuf pb))

/-- DES (40_symbol_codec.md R67). -/
def execDes (s : State) : Out :=
  if s.config.strictGroups = true ∧ s.q.length % 4 ≠ 0 then raise .truncatedFrame s
  else if s.q.length / 4 > s.config.maxB then raise .overflow s
  else succeed (s.setOut (deserialize s.q))

end Sys2Proof.Machine
end

