-- ==== Sys2Proof/Machine/Dispatch.lean ====
section
/-! DEFINITION. One arm per command: each calls its meaning. -/

namespace Sys2Proof.Machine

def exec (i : Instr) (s : State) : Host.Outcome State Fault Refusal :=
  match i with
  | .ser pb => Sys2Proof.Machine.execSer pb s
  | .des => Sys2Proof.Machine.execDes s
  | .pwr => Sys2Proof.Machine.execPwr s
  | .prd => Sys2Proof.Machine.execPrd s
  | .hide encrypted => Sys2Proof.Machine.execHide encrypted s
  | .extr => Sys2Proof.Machine.execExtr s

end Sys2Proof.Machine
end

