-- ==== Sys2Proof/Machine/HostPort.lean ====
section
/-! DEFINITION. The host interface (10_state.md R33, R35): register, buffer and pixel accesses, issuing a command, and
the reset event. -/

namespace Sys2Proof.Machine

/-- What a 64-bit length register reads for a buffer of n elements (10_state.md R24 to R26): n. For n ≥ 2^64 the spec
states no value: a free value (log 8). -/
def lengthRegister (n : Nat) : DWord := if n < 2 ^ 64 then BitVec.ofNat 64 n else Config.unstatedLength n

/-- What a host read of register i returns (10_state.md R17); none where R33 does not allow the read. -/
def registerValue (i : Nat) (s : State) : Option Nat :=
  match i with
  | 1 => some s.status.toNat
  | 2 => some s.width.toNat
  | 3 => some s.height.toNat
  | 4 => some s.qcnt.toNat
  | 5 => some s.magic.toNat
  | 6 => some s.len.toNat
  | 7 => some s.cap
  | 8 => some (lengthRegister s.inBuf.length).toNat
  | 9 => some (lengthRegister s.q.length).toNat
  | 10 => some (lengthRegister s.out.length).toNat
  | _ => none

/-- Issuing command word w (10_state.md R18): decode it (30_encoding.md R53) and execute it; an illegal word raises
IllegalCommand and no command rule runs (60_exceptions.md R89). -/
def issueCommand (w : Word) (s : State) : Out :=
  match decode w with
  | .ok i => exec i s
  | .error _ => raise .illegalCommand s

/-- HostWriteReg(i, v) (10_state.md R33): CMD, WIDTH, HEIGHT and QCNT, v within the register's width. -/
def hostWriteReg (i v : Nat) (s : State) : Out :=
  match i with
  | 0 => if v < 2 ^ 32 then issueCommand (BitVec.ofNat 32 v) s else .refused (.valueTooWide i)
  | 2 => if v < 2 ^ 32 then .next (s.setWidth (BitVec.ofNat 32 v)) else .refused (.valueTooWide i)
  | 3 => if v < 2 ^ 32 then .next (s.setHeight (BitVec.ofNat 32 v)) else .refused (.valueTooWide i)
  | 4 => if v < 2 ^ 64 then .next (s.setQcnt (BitVec.ofNat 64 v)) else .refused (.valueTooWide i)
  | _ => .refused (.registerNotWritable i)

/-- HostReadReg(i) (10_state.md R33). -/
def hostReadReg (i : Nat) (s : State) : Out :=
  match registerValue i s with
  | some v => .next (s.reply (.register i v))
  | none => .refused (.registerNotReadable i)

/-- HostLoadIN(bytes) (10_state.md R33). -/
def hostLoadIN (bytes : List Byte) (s : State) : Out :=
  if bytes.length ≤ s.config.maxB then .next (s.setIn bytes) else .refused .loadTooLong

/-- HostLoadQ(quads) (10_state.md R33). -/
def hostLoadQ (quads : List Quad) (s : State) : Out :=
  if quads.length ≤ s.config.maxQ then .next (s.setQ quads) else .refused .loadTooLong

/-- HostWritePix(a, v) (10_state.md R33). -/
def hostWritePix (a : Nat) (v : Byte) (s : State) : Out :=
  if a < 3 * s.config.maxPix then .next (s.setPix (Memory.write s.pix a v)) else .refused (.noSuchPixel a)

/-- HostReadPix(a) (10_state.md R33); a byte that holds no value is the fault UnwrittenPixel. -/
def hostReadPix (a : Nat) (s : State) : Out :=
  if a < 3 * s.config.maxPix then
    match Memory.read s.pix a with
    | some v => .next (s.reply (.pixel a v))
    | none => .fault .unwrittenPixel
  else .refused (.noSuchPixel a)

/-- The reset event (70_reset_and_hazards.md R100): every register and buffer at its reset value and no PIX byte with a
value; the configuration is unaffected (R101). The host's own side is kept (log 6). -/
def resetEvent (s : State) : State :=
  { State.reset with config := s.config, hostActions := s.hostActions, hostReplies := s.hostReplies }

/-- One host action, an atomic step (10_state.md R33, 20_memory.md R42). -/
def performAction (a : HostAction) (s : State) : Out :=
  match a with
  | .writeReg i v => hostWriteReg i v s
  | .readReg i => hostReadReg i s
  | .loadIN bytes => hostLoadIN bytes s
  | .loadQ quads => hostLoadQ quads s
  | .readIN => .next (s.reply (.bytes s.inBuf))
  | .readQ => .next (s.reply (.quads s.q))
  | .readOUT => .next (s.reply (.bytes s.out))
  | .writePix address value => hostWritePix address value s
  | .readPix address => hostReadPix address s
  | .reset => .next (resetEvent s)

/-- The next event: the host's oldest pending action, taken off its list and performed; with none pending nothing
happens (10_state.md R16, 20_memory.md R45; log 3, log 4). -/
def nextEvent (s : State) : Out :=
  match s.hostActions with
  | [] => .next s
  | a :: rest => performAction a (s.setActions rest)

/-- The host action by which the bits w of a command of nbits bits reach the engine: a write of CMD. -/
def commandWrite (nbits w : Nat) : HostAction := .writeReg 0 (w % 2 ^ nbits)

end Sys2Proof.Machine
end

