-- ==== Sys2Proof/Machine/Step.lean ====
section
/-! DEFINITION. One step of the machine: the next event in the total order of host actions and commands
(20_memory.md R45). -/

namespace Sys2Proof.Machine

/-- One step: the host's oldest pending action; a CMD write runs its command within the same step. -/
def step (s : State) : Host.Outcome State Fault Refusal := nextEvent s

/-- s with a write of that command to CMD pending ahead of everything else, so that the next step runs it (log 3). -/
def State.withFetchWord (s : State) (nbits w : Nat) : State :=
  s.setActions (commandWrite nbits w :: s.hostActions)

end Sys2Proof.Machine
end

