-- ==== Sys2Proof/Safety.lean ====
section
/-! DEFINITION. What the model's claims call a good state and a carrier that is loaded. -/

namespace Sys2Proof.Machine

/-- Bits 31:5 of STATUS read as zero (10_state.md R19). -/
abbrev State.statusReservedZero (s : State) : Prop := s.status.toNat < 2 ^ 5

/-- ERR holds a code QLE writes: 0 to 6 (60_exceptions.md R85, R92). -/
abbrev State.errLegal (s : State) : Prop := s.err.toNat ≤ 6

/-- Every buffer is within its capacity (10_state.md R24, R25, R26). -/
abbrev State.buffersFit (s : State) : Prop :=
  s.inBuf.length ≤ s.config.maxB ∧ s.q.length ≤ s.config.maxQ ∧ s.out.length ≤ s.config.maxB

/-- PIX is in canonical form and holds no byte at or above 3·MAXPIX (10_state.md R27). -/
abbrev State.pixWf (s : State) : Prop := Memory.wf s.pix ∧ Memory.below s.pix (3 * s.config.maxPix)

/-- MAGIC holds 0, as after reset, with LEN 0, or an LSB magic; ENCF is 1 exactly when it is the encrypted one
(10_state.md R19, R22). -/
abbrev State.frameResultWf (s : State) : Prop :=
  ((s.magic = 0#32 ∧ s.len = 0#64) ∨ s.magic = 0xDEADC0DE#32 ∨ s.magic = 0x1337C0DE#32) ∧
    (s.encf = true ↔ s.magic = 0x1337C0DE#32)

/-- LEN is the length of a payload that fitted IN or OUT (10_state.md R22). -/
abbrev State.lenFits (s : State) : Prop := s.len.toNat ≤ s.config.maxB

/-- The invariant of the machine: what holds at reset and every step keeps. -/
abbrev State.Inv (s : State) : Prop :=
  s.config.wf ∧ s.statusReservedZero ∧ s.errLegal ∧ s.buffersFit ∧ s.pixWf ∧ s.frameResultWf ∧ s.lenFits

/-- PIX bytes 0 to n − 1 hold values. -/
abbrev State.pixHeld (s : State) (n : Nat) : Prop := ∀ k, k < n → (Memory.read s.pix k).isSome = true

/-- The carrier is loaded as 70_reset_and_hazards.md R102 asks: the grid fits PIX and every byte of it holds a value. -/
abbrev State.carrierLoaded (s : State) : Prop := s.gridPixels ≤ s.config.maxPix ∧ s.pixHeld s.gridChannels

/-- s as an error of this code leaves it: STATUS bits 3:0 replaced, nothing else changed (60_exceptions.md R95). Written
in numbers, apart from the machine's own bit operations. -/
def State.errorEntry (s : State) (code : Nat) : State :=
  { s with status := BitVec.ofNat 32 (s.status.toNat / 16 * 16 + code) }

/-- Bits 1:0 of PIX bytes 0 to 47 hold the 48 quads of a header with this magic and length, most significant first
(41_lsb_frame.md R70, R72): the header read as one 96-bit number. -/
abbrev State.headerIs (s : State) (magic : Word) (len : DWord) : Prop :=
  ∀ k, k < 48 → (Memory.read s.pix k).map (fun v => v.toNat % 4) =
    some ((magic.toNat * 2 ^ 64 + len.toNat) / 4 ^ (47 - k) % 4)

/-- The quad a HIDE of this header and payload stores at PIX address a (42_lsb_embedder.md R80): a header quad, a payload
quad, or a zero padding quad. Written in numbers, apart from the machine's own serializer. -/
def hiddenQuad (magic : Word) (payload : List Byte) (a : Nat) : Nat :=
  if a < 48 then (magic.toNat * 2 ^ 64 + payload.length) / 4 ^ (47 - a) % 4
  else
    match payload[(a - 48) / 4]? with
    | some b => b.toNat / 4 ^ (3 - (a - 48) % 4) % 4
    | none => 0

/-- The number of quads a HIDE of an n-byte payload stores: 3·ceil(4F/3) with F = 12 + n (41_lsb_frame.md R72). -/
def hiddenQuads (n : Nat) : Nat := 3 * ((4 * (12 + n) + 2) / 3)

end Sys2Proof.Machine
end

