-- ==== Sys2Proof/Certificates/Slice0/Obligations.lean ====
section
/-! DEFINITION. The statements about the model. Each docstring names the rule of spec/ it rests on. -/

open Sys2Proof Sys2Proof.Machine

/-! ### Command words -/

/-- 30_encoding.md R53: the four checks in their order, each by its name, the command and its operand fields when all
pass, the raise of IllegalCommand when one fails, and the execution of the command rule otherwise. The fields are written
as quotients and remainders of the word. -/
def Obligations.DecoderFollowsCheckOrder : Prop :=
  ∀ w : Word,
    (¬(1 ≤ w.toNat % 16 ∧ w.toNat % 16 ≤ 6) → decode w = .error .reservedOp) ∧
    (1 ≤ w.toNat % 16 → w.toNat % 16 ≤ 6 → (w.toNat / 2 ^ 16 ≠ 0 ∨ w.toNat / 2 ^ 5 % 8 ≠ 0) →
      decode w = .error .reservedBits) ∧
    (1 ≤ w.toNat % 16 → w.toNat % 16 ≤ 6 → w.toNat / 2 ^ 16 = 0 → w.toNat / 2 ^ 5 % 8 = 0 →
      w.toNat / 2 ^ 4 % 2 ≠ 0 → w.toNat % 16 ≠ 5 → decode w = .error .encOutsideHide) ∧
    (1 ≤ w.toNat % 16 → w.toNat % 16 ≤ 6 → w.toNat / 2 ^ 16 = 0 → w.toNat / 2 ^ 5 % 8 = 0 →
      (w.toNat / 2 ^ 4 % 2 = 0 ∨ w.toNat % 16 = 5) → w.toNat / 2 ^ 8 % 256 ≠ 0 → w.toNat % 16 ≠ 1 →
      decode w = .error .pbOutsideSer) ∧
    (1 ≤ w.toNat % 16 → w.toNat % 16 ≤ 6 → w.toNat / 2 ^ 16 = 0 → w.toNat / 2 ^ 5 % 8 = 0 →
      (w.toNat / 2 ^ 4 % 2 = 0 ∨ w.toNat % 16 = 5) → (w.toNat / 2 ^ 8 % 256 = 0 ∨ w.toNat % 16 = 1) →
      (w.toNat % 16 = 1 → decode w = .ok (.ser (w.toNat / 2 ^ 8 % 256))) ∧
      (w.toNat % 16 = 2 → decode w = .ok .des) ∧
      (w.toNat % 16 = 3 → decode w = .ok .pwr) ∧
      (w.toNat % 16 = 4 → decode w = .ok .prd) ∧
      (w.toNat % 16 = 5 → decode w = .ok (.hide (decide (w.toNat / 2 ^ 4 % 2 = 1)))) ∧
      (w.toNat % 16 = 6 → decode w = .ok .extr)) ∧
    (∀ (e : DecodeError) (s : State), decode w = .error e → issueCommand w s = .next (s.errorEntry 4)) ∧
    (∀ (i : Instr) (s : State), decode w = .ok i → issueCommand w s = exec i s)

/-- Every well-formed command comes back from its own word, every operand at every value its field holds
(30_encoding.md sections 1 to 4). -/
def Obligations.DecodeEncodeAgree : Prop :=
  ∀ i : Instr, WellFormed i → decode (encode i) = .ok i

/-- Every word the decoder accepts is the word of the command it gives, which is well-formed: no two words mean one
command (30_encoding.md sections 1 to 4). -/
def Obligations.EncodeDecodeAgree : Prop :=
  ∀ (w : Word) (i : Instr), decode w = .ok i → WellFormed i ∧ encode i = w

/-- The words of 30_encoding.md section 4 and of the vectors V59 to V66 decode as the spec says. -/
def Obligations.SpecWordsDecode : Prop :=
  decode 0x00000301#32 = .ok (.ser 3) ∧ decode 0x00000101#32 = .ok (.ser 1) ∧ decode 0x00000001#32 = .ok (.ser 0) ∧
  decode 0x00000002#32 = .ok .des ∧ decode 0x00000003#32 = .ok .pwr ∧ decode 0x00000004#32 = .ok .prd ∧
  decode 0x00000005#32 = .ok (.hide false) ∧ decode 0x00000015#32 = .ok (.hide true) ∧
  decode 0x00000006#32 = .ok .extr ∧
  decode 0x00000000#32 = .error .reservedOp ∧ decode 0x00000007#32 = .error .reservedOp ∧
  decode 0x0000000F#32 = .error .reservedOp ∧ decode 0x00000011#32 = .error .encOutsideHide ∧
  decode 0x00000102#32 = .error .pbOutsideSer ∧ decode 0x00010001#32 = .error .reservedBits ∧
  decode 0x00000025#32 = .error .reservedBits

/-- 30_encoding.md R54 and 60_exceptions.md R89: exactly the words named there raise IllegalCommand, which changes only
ERR; every other word runs a command, and no command rule raises IllegalCommand. -/
def Obligations.IllegalWordsRaiseIllegalCommand : Prop :=
  (∀ (w : Word) (s : State),
    ((w.toNat % 16 = 0 ∨ 7 ≤ w.toNat % 16) ∨ (w.toNat / 2 ^ 5 % 8 ≠ 0 ∨ w.toNat / 2 ^ 16 ≠ 0) ∨
      (w.toNat / 2 ^ 4 % 2 ≠ 0 ∧ w.toNat % 16 ≠ 5) ∨ (w.toNat / 2 ^ 8 % 256 ≠ 0 ∧ w.toNat % 16 ≠ 1) →
      issueCommand w s = .next (s.errorEntry 4)) ∧
    (¬((w.toNat % 16 = 0 ∨ 7 ≤ w.toNat % 16) ∨ (w.toNat / 2 ^ 5 % 8 ≠ 0 ∨ w.toNat / 2 ^ 16 ≠ 0) ∨
      (w.toNat / 2 ^ 4 % 2 ≠ 0 ∧ w.toNat % 16 ≠ 5) ∨ (w.toNat / 2 ^ 8 % 256 ≠ 0 ∧ w.toNat % 16 ≠ 1)) →
      ∃ i, decode w = .ok i ∧ issueCommand w s = exec i s)) ∧
  (∀ (i : Instr) (s t : State), exec i s = .next t → t.err ≠ 4#4)

/-! ### The step -/

/-- When the host's oldest pending action writes a command word to CMD, the step runs the decoded command, or raises
IllegalCommand, at the state with that action taken off the host's list (the list is the model's, log 3). -/
def Obligations.StepRunsDecodedCommand : Prop :=
  ∀ (s : State) (w : Word) (rest : List HostAction), s.hostActions = .writeReg 0 w.toNat :: rest →
    (∀ i, decode w = .ok i → step s = exec i { s with hostActions := rest }) ∧
    (∀ e, decode w = .error e → step s = .next ({ s with hostActions := rest }.errorEntry 4))

/-- The step is one host action, the oldest pending one; with none pending nothing changes (10_state.md section 1;
20_memory.md section 6). That an idle step answers the same state is the model's choice (log 4). -/
def Obligations.StepPerformsOldestAction : Prop :=
  (∀ (s : State) (a : HostAction) (rest : List HostAction), s.hostActions = a :: rest →
    step s = performAction a { s with hostActions := rest }) ∧
  (∀ s : State, s.hostActions = [] → step s = .next s)

/-- A word placed by withFetchWord is the command the very next step runs, and the host's list is then as before
(log 3). -/
def Obligations.FetchWordRunsNext : Prop :=
  ∀ (s : State) (w : Word), step (s.withFetchWord 32 w.toNat) = issueCommand w s

/-! ### The symbol codec -/

/-- 40_symbol_codec.md R59, with its example. -/
def Obligations.ByteToQuadsLanes : Prop :=
  (∀ b : Byte, (byteToQuads b).map BitVec.toNat =
    [b.toNat / 64 % 4, b.toNat / 16 % 4, b.toNat / 4 % 4, b.toNat % 4]) ∧
  byteToQuads 0xDE#8 = [3#2, 1#2, 3#2, 2#2]

/-- 40_symbol_codec.md R60: the value of four quads, and both directions of the inverse. -/
def Obligations.QuadsToByteInverse : Prop :=
  (∀ q0 q1 q2 q3 : Quad,
    (quadsToByte q0 q1 q2 q3).toNat = q0.toNat * 64 + q1.toNat * 16 + q2.toNat * 4 + q3.toNat) ∧
  (∀ b : Byte, ∃ q0 q1 q2 q3, byteToQuads b = [q0, q1, q2, q3] ∧ quadsToByte q0 q1 q2 q3 = b) ∧
  (∀ q0 q1 q2 q3 : Quad, byteToQuads (quadsToByte q0 q1 q2 q3) = [q0, q1, q2, q3])

/-- 40_symbol_codec.md R61: quad i of a serialized stream is lane i mod 4 of byte i div 4, and z zero-quads follow, the
fewest that make the length a multiple of p. -/
def Obligations.SerializeQuadByQuad : Prop :=
  ∀ (bs : List Byte) (p : Nat), 1 ≤ p →
    (∀ (i : Nat) (b : Byte), bs[i / 4]? = some b →
      (serialize bs p)[i]? = some (BitVec.ofNat 2 (b.toNat / 4 ^ (3 - i % 4)))) ∧
    (∀ i, 4 * bs.length ≤ i → i < (serialize bs p).length → (serialize bs p)[i]? = some 0#2) ∧
    (serialize bs p).length = 4 * bs.length + (p - 4 * bs.length % p) % p ∧
    (p - 4 * bs.length % p) % p ≤ p - 1 ∧
    p ∣ (serialize bs p).length

/-- 40_symbol_codec.md R62: the length law, its cases p = 1, p = 3 and the empty sequence, and when the padded length is
a multiple of 4. -/
def Obligations.SerializedLength : Prop :=
  ∀ (bs : List Byte) (p : Nat), 1 ≤ p →
    (serialize bs p).length = (4 * bs.length + p - 1) / p * p ∧
    (4 * bs.length ≤ (serialize bs p).length ∧
      ∀ n, p ∣ n → 4 * bs.length ≤ n → (serialize bs p).length ≤ n) ∧
    (p = 1 → (serialize bs p).length = 4 * bs.length) ∧
    (p = 3 → (serialize bs p).length ≤ 4 * bs.length + 2) ∧
    (bs = [] → serialize bs p = []) ∧
    (4 ∣ (serialize bs p).length ↔ 4 ∣ (p - 4 * bs.length % p) % p)

/-- 40_symbol_codec.md R63: one byte per whole group, in order, and the last len mod 4 quads are not read. -/
def Obligations.DeserializeGroups : Prop :=
  ∀ qs : List Quad,
    (deserialize qs).length = qs.length / 4 ∧
    (∀ (i : Nat) (q0 q1 q2 q3 : Quad), qs[4 * i]? = some q0 → qs[4 * i + 1]? = some q1 → qs[4 * i + 2]? = some q2 →
      qs[4 * i + 3]? = some q3 → (deserialize qs)[i]? = some (quadsToByte q0 q1 q2 q3)) ∧
    (∀ tail : List Quad, qs.length % 4 = 0 → tail.length < 4 → deserialize (qs ++ tail) = deserialize qs)

/-- 40_symbol_codec.md R64: the three codec laws, with the rule's cases p ≤ 4 and p = 9. -/
def Obligations.CodecLaws : Prop :=
  (∀ b : List Byte, deserialize (serialize b 1) = b) ∧
  (∀ (b : List Byte) (p : Nat), 1 ≤ p →
    deserialize (serialize b p) = b ++ List.replicate ((p - 4 * b.length % p) % p / 4) 0#8) ∧
  (∀ (b : List Byte) (p : Nat), 1 ≤ p → p ≤ 4 → deserialize (serialize b p) = b) ∧
  deserialize (serialize [0x01#8] 9) = [0x01#8, 0x00#8] ∧
  (∀ qs : List Quad, serialize (deserialize qs) 1 = qs.take (4 * (qs.length / 4)))

/-! ### The LSB frame -/

/-- 41_lsb_frame.md R69: the magic HIDE writes, the magics EXTR recognises, and the encryption flag of a magic. -/
def Obligations.MagicSelection : Prop :=
  magicFor true = 0x1337C0DE#32 ∧ magicFor false = 0xDEADC0DE#32 ∧
  (∀ m : Word, isLSBMagic m = true ↔ m = 0xDEADC0DE#32 ∨ m = 0x1337C0DE#32) ∧
  (∀ m : Word, encOf m = true ↔ m = 0x1337C0DE#32) ∧
  isLSBMagic 0x5AFEC0DE#32 = false ∧ isLSBMagic 0xBABEC0DE#32 = false

/-- 41_lsb_frame.md R70: the frame byte by byte, its length, and the rule's example. -/
def Obligations.FrameLayout : Prop :=
  (∀ (magic : Word) (payload : List Byte), payload.length < 2 ^ 64 →
    (buildFrameLSB magic payload).length = 12 + payload.length ∧
    (∀ i, i < 4 → (buildFrameLSB magic payload)[i]? = some (BitVec.ofNat 8 (magic.toNat / 256 ^ (3 - i)))) ∧
    (∀ i, i < 8 → (buildFrameLSB magic payload)[4 + i]? = some (BitVec.ofNat 8 (payload.length / 256 ^ (7 - i)))) ∧
    (∀ i, (buildFrameLSB magic payload)[12 + i]? = payload[i]?)) ∧
  buildFrameLSB 0xDEADC0DE#32 [0x68#8, 0x69#8] =
    [0xDE#8, 0xAD#8, 0xC0#8, 0xDE#8, 0#8, 0#8, 0#8, 0#8, 0#8, 0#8, 0#8, 2#8, 0x68#8, 0x69#8]

/-- 41_lsb_frame.md R71: the magic and the length of a 12-byte header, as sums over its bytes. -/
def Obligations.HeaderParse : Prop :=
  ∀ m0 m1 m2 m3 l0 l1 l2 l3 l4 l5 l6 l7 : Byte,
    (parseHeaderLSB [m0, m1, m2, m3, l0, l1, l2, l3, l4, l5, l6, l7]).1.toNat =
      m0.toNat * 256 ^ 3 + m1.toNat * 256 ^ 2 + m2.toNat * 256 + m3.toNat ∧
    (parseHeaderLSB [m0, m1, m2, m3, l0, l1, l2, l3, l4, l5, l6, l7]).2.toNat =
      l0.toNat * 256 ^ 7 + l1.toNat * 256 ^ 6 + l2.toNat * 256 ^ 5 + l3.toNat * 256 ^ 4 + l4.toNat * 256 ^ 3 +
        l5.toNat * 256 ^ 2 + l6.toNat * 256 + l7.toNat

/-- 41_lsb_frame.md R72: the header is 48 quads, which are pixels 0 to 15; the padded length of a frame and its padding;
and the declared length, read back from the frame's own header, is the payload's. -/
def Obligations.FrameFacts : Prop :=
  (∀ (magic : Word) (payload : List Byte) (p : Nat), 1 ≤ p →
    (serialize ((buildFrameLSB magic payload).take 12) 1).length = 48 ∧
    (serialize (buildFrameLSB magic payload) p).take 48 = serialize ((buildFrameLSB magic payload).take 12) 1) ∧
  (∀ k, k < 48 → k / 3 < 16) ∧ 48 / 3 = 16 ∧ 48 % 3 = 0 ∧
  (∀ frame : List Byte,
    (serialize frame 3).length = 3 * ((4 * frame.length + 2) / 3) ∧
    3 * ((4 * frame.length + 2) / 3) - 4 * frame.length ≤ 2 ∧
    ∀ k, 4 * frame.length ≤ k → k < (serialize frame 3).length → (serialize frame 3)[k]? = some 0#2) ∧
  (∀ (magic : Word) (payload : List Byte), payload.length < 2 ^ 64 →
    parseHeaderLSB ((buildFrameLSB magic payload).take 12) = (magic, BitVec.ofNat 64 payload.length))

/-! ### The carrier -/

/-- The raster map of quad k, its pixel and its channel give PIX address k, at a pixel of the grid (20_memory.md section 3;
42_lsb_embedder.md section 1). That the commands use address k is PwrResult, PrdResult and HideResult. -/
def Obligations.RasterAddressIsQuadIndex : Prop :=
  ∀ w h k : Nat, k < 3 * w * h →
    rasterAddr w k = k ∧ pixAddr w (k / 3 % w) (k / 3 / w) (k % 3) = 3 * (k / 3) + k % 3 ∧
    k / 3 % w < w ∧ k / 3 / w < h ∧ k % 3 < 3

/-- 42_lsb_embedder.md R75 and R76: the channel update keeps the six high bits and stores the quad, the channel read
gives the two low bits, and the two laws between them. -/
def Obligations.ChannelLaws : Prop :=
  (∀ (v : Byte) (q : Quad), (chanWrite v q).toNat = v.toNat / 4 * 4 + q.toNat ∧
    (chanWrite v q).getLsbD 1 = q.getLsbD 1 ∧ (chanWrite v q).getLsbD 0 = q.getLsbD 0) ∧
  (∀ v : Byte, (chanRead v).toNat = v.toNat % 4) ∧
  (∀ (v : Byte) (q : Quad), chanRead (chanWrite v q) = q) ∧
  (∀ v : Byte, chanWrite v (chanRead v) = v)

/-- 42_lsb_embedder.md R77: HIDE turns a frame away exactly when it is longer than the capacity, before any pixel is
modified; the byte test and the quad test agree; the rule's example. -/
def Obligations.CapacityTest : Prop :=
  (∀ (e : Bool) (s : State), s.gridPixels ≤ s.config.maxPix →
    12 + s.inBuf.length > s.width.toNat * s.height.toNat * 6 / 8 →
    exec (.hide e) s = .next (s.errorEntry 1)) ∧
  (∀ (e : Bool) (s t : State), 12 + s.inBuf.length ≤ s.width.toNat * s.height.toNat * 6 / 8 →
    exec (.hide e) s = .next t → t.err ≠ 1#4) ∧
  (∀ w h f : Nat, capacity w h = w * h * 6 / 8 ∧
    (f ≤ capacity w h ↔ 3 * ((4 * f + 2) / 3) ≤ 3 * w * h) ∧ (f ≤ capacity w h ↔ 4 * f ≤ 3 * w * h)) ∧
  capacity 4 4 = 12

/-! ### What each command does -/

/-- SER with a non-zero padBlock and a result that fits Q completes: Q, ERR and nothing else
(40_symbol_codec.md section 3). -/
def Obligations.SerResult : Prop :=
  ∀ (pb : Nat) (s : State), pb ≠ 0 → (4 * s.inBuf.length + pb - 1) / pb * pb ≤ s.config.maxQ →
    ∃ t, exec (.ser pb) s = .next t ∧ t = { s with q := t.q, status := t.status } ∧
      t.status.toNat = s.status.toNat / 16 * 16 ∧
      t.q.length = (4 * s.inBuf.length + pb - 1) / pb * pb ∧
      (∀ (i : Nat) (b : Byte), s.inBuf[i / 4]? = some b →
        t.q[i]? = some (BitVec.ofNat 2 (b.toNat / 4 ^ (3 - i % 4)))) ∧
      (∀ i, 4 * s.inBuf.length ≤ i → i < t.q.length → t.q[i]? = some 0#2)

/-- SER's errors, first failing check first (40_symbol_codec.md section 3; 60_exceptions.md section 2). -/
def Obligations.SerErrors : Prop :=
  ∀ (pb : Nat) (s : State),
    (pb = 0 → exec (.ser pb) s = .next (s.errorEntry 5)) ∧
    (pb ≠ 0 → (4 * s.inBuf.length + pb - 1) / pb * pb > s.config.maxQ →
      exec (.ser pb) s = .next (s.errorEntry 6))

/-- DES completes when its quad count is accepted and the result fits OUT: OUT, ERR and nothing else; a trailing partial
group is dropped unless STRICT_GROUPS (40_symbol_codec.md section 4). -/
def Obligations.DesResult : Prop :=
  ∀ s : State, (s.config.strictGroups = false ∨ s.q.length % 4 = 0) → s.q.length / 4 ≤ s.config.maxB →
    ∃ t, exec .des s = .next t ∧ t = { s with out := t.out, status := t.status } ∧
      t.status.toNat = s.status.toNat / 16 * 16 ∧
      t.out.length = s.q.length / 4 ∧
      (∀ (i : Nat) (q0 q1 q2 q3 : Quad), s.q[4 * i]? = some q0 → s.q[4 * i + 1]? = some q1 →
        s.q[4 * i + 2]? = some q2 → s.q[4 * i + 3]? = some q3 →
        t.out[i]? = some (BitVec.ofNat 8 (q0.toNat * 64 + q1.toNat * 16 + q2.toNat * 4 + q3.toNat)))

/-- DES's errors, first failing check first (40_symbol_codec.md section 4; 60_exceptions.md section 2). -/
def Obligations.DesErrors : Prop :=
  ∀ s : State,
    (s.config.strictGroups = true → s.q.length % 4 ≠ 0 → exec .des s = .next (s.errorEntry 3)) ∧
    ((s.config.strictGroups = false ∨ s.q.length % 4 = 0) → s.q.length / 4 > s.config.maxB →
      exec .des s = .next (s.errorEntry 6))

/-- PWR completes when Q is whole pixels, fits the grid and the bytes it updates hold values: bits 1:0 of PIX bytes 0 to
len(Q) − 1, ERR and nothing else (42_lsb_embedder.md section 3). -/
def Obligations.PwrResult : Prop :=
  ∀ s : State, s.gridPixels ≤ s.config.maxPix → s.q.length % 3 = 0 → s.q.length ≤ s.gridChannels →
    s.pixHeld s.q.length →
    ∃ t, exec .pwr s = .next t ∧ t = { s with pix := t.pix, status := t.status } ∧
      t.status.toNat = s.status.toNat / 16 * 16 ∧
      (∀ (a : Nat) (q : Quad) (v : Byte), s.q[a]? = some q → Memory.read s.pix a = some v →
        Memory.read t.pix a = some (BitVec.ofNat 8 (v.toNat / 4 * 4 + q.toNat))) ∧
      (∀ a, s.q.length ≤ a → Memory.read t.pix a = Memory.read s.pix a)

/-- PWR's errors, first failing check first (42_lsb_embedder.md section 3; 60_exceptions.md section 2). -/
def Obligations.PwrErrors : Prop :=
  ∀ s : State,
    (s.gridPixels > s.config.maxPix → exec .pwr s = .next (s.errorEntry 5)) ∧
    (s.gridPixels ≤ s.config.maxPix → s.q.length % 3 ≠ 0 → exec .pwr s = .next (s.errorEntry 5)) ∧
    (s.gridPixels ≤ s.config.maxPix → s.q.length % 3 = 0 → s.q.length > s.gridChannels →
      exec .pwr s = .next (s.errorEntry 1))

/-- PRD completes when QCNT quads lie in the grid, fit Q and their bytes hold values: Q, ERR and nothing else
(42_lsb_embedder.md section 4). -/
def Obligations.PrdResult : Prop :=
  ∀ s : State, s.gridPixels ≤ s.config.maxPix → s.qcnt.toNat ≤ s.gridChannels → s.qcnt.toNat ≤ s.config.maxQ →
    s.pixHeld s.qcnt.toNat →
    ∃ t, exec .prd s = .next t ∧ t = { s with q := t.q, status := t.status } ∧
      t.status.toNat = s.status.toNat / 16 * 16 ∧
      t.q.length = s.qcnt.toNat ∧
      (∀ (k : Nat) (v : Byte), k < s.qcnt.toNat → Memory.read s.pix k = some v →
        t.q[k]? = some (BitVec.ofNat 2 v.toNat))

/-- PRD's errors, first failing check first (42_lsb_embedder.md section 4; 60_exceptions.md section 2). -/
def Obligations.PrdErrors : Prop :=
  ∀ s : State,
    (s.gridPixels > s.config.maxPix → exec .prd s = .next (s.errorEntry 5)) ∧
    (s.gridPixels ≤ s.config.maxPix → s.qcnt.toNat > s.gridChannels → exec .prd s = .next (s.errorEntry 3)) ∧
    (s.gridPixels ≤ s.config.maxPix → s.qcnt.toNat ≤ s.gridChannels → s.qcnt.toNat > s.config.maxQ →
      exec .prd s = .next (s.errorEntry 6))

/-- HIDE completes when the frame fits the carrier and the bytes it updates hold values: bits 1:0 of the first
3·ceil(4F/3) PIX bytes become the frame's quads and its padding, MAGIC, LEN, ENCF and ERR are written, nothing else
changes (42_lsb_embedder.md section 5). -/
def Obligations.HideResult : Prop :=
  ∀ (e : Bool) (s : State), s.gridPixels ≤ s.config.maxPix →
    12 + s.inBuf.length ≤ s.width.toNat * s.height.toNat * 6 / 8 → s.pixHeld (hiddenQuads s.inBuf.length) →
    ∃ t, exec (.hide e) s = .next t ∧
      t = { s with pix := t.pix, magic := t.magic, len := t.len, status := t.status } ∧
      t.magic = (if e then 0x1337C0DE#32 else 0xDEADC0DE#32) ∧ t.len.toNat = s.inBuf.length ∧
      t.status.toNat = s.status.toNat / 32 * 32 + (if e then 16 else 0) ∧
      (∀ (a : Nat) (v : Byte), a < hiddenQuads s.inBuf.length → Memory.read s.pix a = some v →
        Memory.read t.pix a = some (BitVec.ofNat 8 (v.toNat / 4 * 4 + hiddenQuad t.magic s.inBuf a))) ∧
      (∀ a, hiddenQuads s.inBuf.length ≤ a → Memory.read t.pix a = Memory.read s.pix a)

/-- HIDE's errors, first failing check first (42_lsb_embedder.md section 5; 60_exceptions.md section 2). -/
def Obligations.HideErrors : Prop :=
  ∀ (e : Bool) (s : State),
    (s.gridPixels > s.config.maxPix → exec (.hide e) s = .next (s.errorEntry 5)) ∧
    (s.gridPixels ≤ s.config.maxPix → 12 + s.inBuf.length > s.width.toNat * s.height.toNat * 6 / 8 →
      exec (.hide e) s = .next (s.errorEntry 1))

/-- EXTR completes when the carrier's header has an LSB magic and a length that fits the grid and OUT, and the payload's
bytes hold values: OUT, MAGIC, LEN, ENCF and ERR, nothing else (42_lsb_embedder.md section 6). -/
def Obligations.ExtrResult : Prop :=
  ∀ (s : State) (magic : Word) (len : DWord), s.gridPixels ≤ s.config.maxPix → 48 ≤ s.gridChannels →
    s.headerIs magic len → (magic = 0xDEADC0DE#32 ∨ magic = 0x1337C0DE#32) →
    48 + 4 * len.toNat ≤ s.gridChannels → len.toNat ≤ s.config.maxB → s.pixHeld (48 + 4 * len.toNat) →
    ∃ t, exec .extr s = .next t ∧
      t = { s with out := t.out, magic := magic, len := len, status := t.status } ∧
      t.status.toNat = s.status.toNat / 32 * 32 + (if magic = 0x1337C0DE#32 then 16 else 0) ∧
      t.out.length = len.toNat ∧
      (∀ (i : Nat) (v0 v1 v2 v3 : Byte), i < len.toNat → Memory.read s.pix (48 + 4 * i) = some v0 →
        Memory.read s.pix (49 + 4 * i) = some v1 → Memory.read s.pix (50 + 4 * i) = some v2 →
        Memory.read s.pix (51 + 4 * i) = some v3 →
        t.out[i]? = some (BitVec.ofNat 8
          (v0.toNat % 4 * 64 + v1.toNat % 4 * 16 + v2.toNat % 4 * 4 + v3.toNat % 4)))

/-- EXTR's errors, first failing check first (42_lsb_embedder.md section 6; 60_exceptions.md section 2). -/
def Obligations.ExtrErrors : Prop :=
  ∀ s : State,
    (s.gridPixels > s.config.maxPix → exec .extr s = .next (s.errorEntry 5)) ∧
    (s.gridPixels ≤ s.config.maxPix → s.gridChannels < 48 → exec .extr s = .next (s.errorEntry 2)) ∧
    (∀ (magic : Word) (len : DWord), s.gridPixels ≤ s.config.maxPix → 48 ≤ s.gridChannels → s.headerIs magic len →
      (magic ≠ 0xDEADC0DE#32 → magic ≠ 0x1337C0DE#32 → exec .extr s = .next (s.errorEntry 2)) ∧
      ((magic = 0xDEADC0DE#32 ∨ magic = 0x1337C0DE#32) → 48 + 4 * len.toNat > s.gridChannels →
        exec .extr s = .next (s.errorEntry 3)) ∧
      ((magic = 0xDEADC0DE#32 ∨ magic = 0x1337C0DE#32) → 48 + 4 * len.toNat ≤ s.gridChannels →
        len.toNat > s.config.maxB → exec .extr s = .next (s.errorEntry 6)))

/-! ### Errors and faults across the commands -/

/-- 60_exceptions.md R90: when ParamError is raised, for every command. -/
def Obligations.ParamErrorWhen : Prop :=
  ∀ (i : Instr) (s : State), (∃ t, exec i s = .next t ∧ t.err = 5#4) ↔
    (i = .ser 0 ∨
      ((i = .pwr ∨ i = .prd ∨ i = .hide true ∨ i = .hide false ∨ i = .extr) ∧ s.gridPixels > s.config.maxPix) ∨
      (i = .pwr ∧ s.q.length % 3 ≠ 0))

/-- Which error codes each command can leave in ERR (60_exceptions.md section 1, the table's first three columns). -/
def Obligations.ErrorCodesByCommand : Prop :=
  ∀ (i : Instr) (s t : State), exec i s = .next t →
    (t.err = 0#4 ∨
      (t.err = 1#4 ∧ (i = .pwr ∨ i = .hide true ∨ i = .hide false)) ∨
      (t.err = 2#4 ∧ i = .extr) ∨
      (t.err = 3#4 ∧ (i = .prd ∨ i = .extr ∨ (i = .des ∧ s.config.strictGroups = true))) ∨
      (t.err = 5#4 ∧ i ≠ .des) ∨
      (t.err = 6#4 ∧ (i = .des ∨ i = .prd ∨ i = .extr ∨ ∃ pb, i = .ser pb)))

/-- 60_exceptions.md R95: a command, or a command word, that reports an error changes STATUS.ERR, which holds its code, and
nothing else. -/
def Obligations.ErrorEntryIsPrecise : Prop :=
  (∀ (i : Instr) (s t : State), exec i s = .next t → t.err ≠ 0#4 → t = s.errorEntry t.err.toNat) ∧
  ∀ (w : Word) (s t : State), issueCommand w s = .next t → t.err ≠ 0#4 → t = s.errorEntry t.err.toNat

/-- No command reads a flag, and every command that ends overwrites ERR (10_state.md section 5; 60_exceptions.md
section 3): two states that differ in STATUS alone fault together, or reach states that differ in STATUS alone with one
ERR, and ENCF is written alike or kept by both. -/
def Obligations.NoCommandReadsFlags : Prop :=
  ∀ (i : Instr) (s : State) (st : Word),
    (∀ t, exec i s = .next t → ∃ u, exec i { s with status := st } = .next u ∧ u = { t with status := u.status } ∧
      u.err = t.err ∧ ((t.encf = s.encf ∧ u.encf = st.getLsbD 4) ∨ u.encf = t.encf)) ∧
    (∀ f, exec i s = .fault f → exec i { s with status := st } = .fault f)

/-- When a command stops on a PIX byte that holds no value (60_exceptions.md sections 1 and 2): after its checks, in EXTR
for the header before the magic check and for the payload after every check. SER and DES never do. -/
def Obligations.UnwrittenPixelWhen : Prop :=
  ∀ s : State,
    (∀ pb, exec (.ser pb) s ≠ .fault .unwrittenPixel) ∧ exec .des s ≠ .fault .unwrittenPixel ∧
    (exec .pwr s = .fault .unwrittenPixel ↔ s.gridPixels ≤ s.config.maxPix ∧ s.q.length % 3 = 0 ∧
      s.q.length ≤ s.gridChannels ∧ ¬ s.pixHeld s.q.length) ∧
    (exec .prd s = .fault .unwrittenPixel ↔ s.gridPixels ≤ s.config.maxPix ∧ s.qcnt.toNat ≤ s.gridChannels ∧
      s.qcnt.toNat ≤ s.config.maxQ ∧ ¬ s.pixHeld s.qcnt.toNat) ∧
    (∀ e, exec (.hide e) s = .fault .unwrittenPixel ↔ s.gridPixels ≤ s.config.maxPix ∧
      12 + s.inBuf.length ≤ s.width.toNat * s.height.toNat * 6 / 8 ∧ ¬ s.pixHeld (hiddenQuads s.inBuf.length)) ∧
    (exec .extr s = .fault .unwrittenPixel ↔ s.gridPixels ≤ s.config.maxPix ∧ 48 ≤ s.gridChannels ∧
      (¬ s.pixHeld 48 ∨ ∃ magic len, s.headerIs magic len ∧ (magic = 0xDEADC0DE#32 ∨ magic = 0x1337C0DE#32) ∧
        48 + 4 * len.toNat ≤ s.gridChannels ∧ len.toNat ≤ s.config.maxB ∧ ¬ s.pixHeld (48 + 4 * len.toNat)))

/-- Every command completes in one step on a carrier whose bytes hold values, and no command is refused in any state
(70_reset_and_hazards.md sections 2 and 4). -/
def Obligations.EveryCommandCompletes : Prop :=
  (∀ (i : Instr) (s : State), s.pixHeld s.gridChannels → ∃ t, exec i s = .next t) ∧
  (∀ (i : Instr) (s : State) (r : Refusal), exec i s ≠ .refused r) ∧
  (∀ (i : Instr) (s : State) (f : Fault), exec i s = .fault f → f = .unwrittenPixel)

/-! ### Frames -/

/-- Frame of SER and PRD, which write Q and ERR alone: every other register and buffer, STATUS bits 31:4 and every byte
of PIX are unchanged (40_symbol_codec.md section 3; 42_lsb_embedder.md section 4). -/
def Obligations.FrameOfQuadWriters : Prop :=
  ∀ (i : Instr) (s t : State), ((∃ pb, i = .ser pb) ∨ i = .prd) → exec i s = .next t →
    t.width = s.width ∧ t.height = s.height ∧ t.qcnt = s.qcnt ∧ t.magic = s.magic ∧ t.len = s.len ∧
    t.inBuf = s.inBuf ∧ t.out = s.out ∧ t.config = s.config ∧
    t.hostActions = s.hostActions ∧ t.hostReplies = s.hostReplies ∧
    t.status.toNat / 16 = s.status.toNat / 16 ∧
    ∀ a, Memory.read t.pix a = Memory.read s.pix a

/-- Frame of DES and EXTR, which write OUT and ERR, and EXTR also MAGIC, LEN and ENCF: every other register and buffer,
STATUS bits 31:5 (31:4 for DES) and every byte of PIX are unchanged (40_symbol_codec.md section 4; 42_lsb_embedder.md
section 6). -/
def Obligations.FrameOfByteWriters : Prop :=
  ∀ (i : Instr) (s t : State), (i = .des ∨ i = .extr) → exec i s = .next t →
    t.width = s.width ∧ t.height = s.height ∧ t.qcnt = s.qcnt ∧ t.inBuf = s.inBuf ∧ t.q = s.q ∧
    t.config = s.config ∧ t.hostActions = s.hostActions ∧ t.hostReplies = s.hostReplies ∧
    t.status.toNat / 32 = s.status.toNat / 32 ∧
    (i = .des → t.magic = s.magic ∧ t.len = s.len ∧ t.encf = s.encf) ∧
    ∀ a, Memory.read t.pix a = Memory.read s.pix a

/-- Frame of PWR and HIDE, which store to PIX and write ERR, and HIDE also MAGIC, LEN and ENCF: every other register and
buffer and STATUS bits 31:5 (31:4 for PWR) are unchanged, and so is every byte of PIX outside the stored ones, which are
bytes 0 to n − 1 for the n quads the command writes (42_lsb_embedder.md sections 3 and 5). -/
def Obligations.FrameOfPixelWriters : Prop :=
  ∀ (i : Instr) (s t : State), (i = .pwr ∨ ∃ e, i = .hide e) → exec i s = .next t →
    t.width = s.width ∧ t.height = s.height ∧ t.qcnt = s.qcnt ∧ t.inBuf = s.inBuf ∧ t.q = s.q ∧ t.out = s.out ∧
    t.config = s.config ∧ t.hostActions = s.hostActions ∧ t.hostReplies = s.hostReplies ∧
    t.status.toNat / 32 = s.status.toNat / 32 ∧
    (i = .pwr → t.magic = s.magic ∧ t.len = s.len ∧ t.encf = s.encf ∧
      ∀ a, s.q.length ≤ a → Memory.read t.pix a = Memory.read s.pix a) ∧
    (∀ e, i = .hide e →
      ∀ a, (serialize (buildFrameLSB (magicFor e) s.inBuf) 3).length ≤ a →
        Memory.read t.pix a = Memory.read s.pix a)

/-- 42_lsb_embedder.md R83: the bits PWR and HIDE change; the bytes EXTR and PRD read, as the bytes that must hold values
and on which alone the outcome depends. -/
def Obligations.EmbedderFootprint : Prop :=
  (∀ (e : Bool) (s t : State), exec (.hide e) s = .next t → t.err = 0#4 →
    (∀ a, (Memory.read t.pix a).map (fun v => v.toNat / 4) = (Memory.read s.pix a).map (fun v => v.toNat / 4)) ∧
    (∀ a, hiddenQuads s.inBuf.length ≤ a → Memory.read t.pix a = Memory.read s.pix a)) ∧
  (∀ s t : State, exec .pwr s = .next t → t.err = 0#4 →
    (∀ a, (Memory.read t.pix a).map (fun v => v.toNat / 4) = (Memory.read s.pix a).map (fun v => v.toNat / 4)) ∧
    (∀ a, s.q.length ≤ a → Memory.read t.pix a = Memory.read s.pix a)) ∧
  (∀ (s t : State) (m : Memory), exec .extr s = .next t → t.err = 0#4 →
    s.pixHeld (48 + 4 * t.len.toNat) ∧
    ((∀ k, k < 48 + 4 * t.len.toNat → Memory.read m k = Memory.read s.pix k) →
      exec .extr { s with pix := m } = .next { t with pix := m })) ∧
  (∀ (s t : State) (m : Memory), exec .extr s = .next t → t.err ≠ 0#4 →
    (∀ k, k < 48 → Memory.read m k = Memory.read s.pix k) →
      exec .extr { s with pix := m } = .next { t with pix := m }) ∧
  (∀ (s t : State) (m : Memory), exec .prd s = .next t → t.err = 0#4 →
    s.pixHeld s.qcnt.toNat ∧
    ((∀ k, k < s.qcnt.toNat → Memory.read m k = Memory.read s.pix k) →
      exec .prd { s with pix := m } = .next { t with pix := m }))

/-- 10_state.md R22: MAGIC and LEN, and with them ENCF, change only by a successful HIDE or EXTR or by reset; after one
they hold the frame's magic and length; a failing one leaves them. -/
def Obligations.ResultRegistersWriters : Prop :=
  (∀ (a : HostAction) (s t : State), performAction a s = .next t →
    (t.magic = s.magic ∧ t.len = s.len ∧ t.encf = s.encf) ∨ a = .reset ∨
      ∃ w : Word, a = .writeReg 0 w.toNat ∧ t.err = 0#4 ∧
        (decode w = .ok .extr ∨ ∃ e, decode w = .ok (.hide e))) ∧
  (∀ (e : Bool) (s t : State), exec (.hide e) s = .next t → t.err = 0#4 →
    t.magic = magicFor e ∧ t.len.toNat = s.inBuf.length) ∧
  (∀ s t : State, exec .extr s = .next t → t.err = 0#4 → s.headerIs t.magic t.len) ∧
  State.reset.magic = 0#32 ∧ State.reset.len = 0#64

/-! ### Headline laws of the embedder -/

/-- 42_lsb_embedder.md R82: what a successful HIDE embeds, EXTR recovers, from any later state with the same grid and
instance whose first 48 + 4·len(b) PIX bytes are as HIDE left them. -/
def Obligations.HideExtractRoundTrip : Prop :=
  ∀ (e : Bool) (s t u : State), s.inBuf.length ≤ s.config.maxB → s.carrierLoaded →
    exec (.hide e) s = .next t → t.err = 0#4 →
    u.width = t.width → u.height = t.height → u.config = t.config →
    (∀ k, k < 48 + 4 * s.inBuf.length → Memory.read u.pix k = Memory.read t.pix k) →
    ∃ v, exec .extr u = .next v ∧ v.err = 0#4 ∧ v.out = s.inBuf ∧ v.len.toNat = s.inBuf.length ∧
      v.magic = (if e then 0x1337C0DE#32 else 0xDEADC0DE#32) ∧ v.encf = e

/-- 42_lsb_embedder.md R84: on a loaded carrier HIDE succeeds exactly when the frame fits, and reports CapacityExceeded
otherwise; the rule's examples. -/
def Obligations.HideBoundary : Prop :=
  (∀ (e : Bool) (s : State), s.carrierLoaded →
    ∃ t, exec (.hide e) s = .next t ∧
      (12 + s.inBuf.length ≤ s.width.toNat * s.height.toNat * 6 / 8 → t.err = 0#4) ∧
      (s.width.toNat * s.height.toNat * 6 / 8 < 12 + s.inBuf.length → t.err = 1#4)) ∧
  (12 + 0 ≤ capacity 4 4 ∧ ¬ 12 + 1 ≤ capacity 4 4) ∧ (capacity 18 1 = 13 ∧ 12 + 1 ≤ capacity 18 1) ∧
  (capacity 17 1 = 12 ∧ ¬ 12 + 1 ≤ capacity 17 1)

/-! ### Invariants -/

/-- Every step keeps the invariant: STATUS bits 31:5 zero, a legal ERR, buffers within capacity, PIX canonical and within
3·MAXPIX, MAGIC a legal magic with ENCF its encryption flag, LEN a payload's length (10_state.md sections 2 to 4;
60_exceptions.md section 1). -/
def Obligations.StepKeepsInvariant : Prop :=
  ∀ s t : State, s.Inv → step s = .next t → t.Inv

/-- The invariant holds at reset (70_reset_and_hazards.md section 1; the instance it carries is the model's, log 2). -/
def Obligations.ResetMeetsInvariant : Prop := State.reset.Inv

/-- The parameters are changed by nothing, the reset event included (10_state.md section 8; 70_reset_and_hazards.md
section 1). That State carries them (log 1) and that reset keeps the host's own side (log 6) are the model's choices. -/
def Obligations.ConfigurationNeverChanges : Prop :=
  (∀ s t : State, step s = .next t → t.config = s.config) ∧
  ∀ s t : State, performAction .reset s = .next t →
    t.config = s.config ∧ t.hostActions = s.hostActions ∧ t.hostReplies = s.hostReplies

/-! ### Reset and the host interface -/

/-- 70_reset_and_hazards.md R100: from any state the reset event sets every piece of state to its reset value, CAP and the
length registers read 0 and no PIX byte holds a value; State.reset has the same values. -/
def Obligations.ResetEventState : Prop :=
  (∀ s : State, ∃ t, performAction .reset s = .next t ∧
    t.status = 0#32 ∧ t.width = 0#32 ∧ t.height = 0#32 ∧ t.qcnt = 0#64 ∧ t.magic = 0#32 ∧ t.len = 0#64 ∧
    t.inBuf = [] ∧ t.q = [] ∧ t.out = [] ∧ (∀ a, Memory.read t.pix a = none) ∧
    registerValue 7 t = some 0 ∧ registerValue 8 t = some 0 ∧ registerValue 9 t = some 0 ∧
    registerValue 10 t = some 0) ∧
  State.reset.status = 0#32 ∧ State.reset.width = 0#32 ∧ State.reset.height = 0#32 ∧ State.reset.qcnt = 0#64 ∧
  State.reset.magic = 0#32 ∧ State.reset.len = 0#64 ∧ State.reset.inBuf = [] ∧ State.reset.q = [] ∧
  State.reset.out = [] ∧ ∀ a, Memory.read State.reset.pix a = none

/-- What a host read of each register returns (10_state.md section 2, the register table). -/
def Obligations.HostRegisterReads : Prop :=
  ∀ s : State,
    registerValue 1 s = some s.status.toNat ∧ registerValue 2 s = some s.width.toNat ∧
    registerValue 3 s = some s.height.toNat ∧ registerValue 4 s = some s.qcnt.toNat ∧
    registerValue 5 s = some s.magic.toNat ∧ registerValue 6 s = some s.len.toNat ∧
    registerValue 7 s = some (s.width.toNat * s.height.toNat * 6 / 8) ∧
    (s.inBuf.length < 2 ^ 64 → registerValue 8 s = some s.inBuf.length) ∧
    (s.q.length < 2 ^ 64 → registerValue 9 s = some s.q.length) ∧
    (s.out.length < 2 ^ 64 → registerValue 10 s = some s.out.length) ∧
    (∀ i v, registerValue i s = some v → v < 2 ^ 64 ∧
      performAction (.readReg i) s = .next { s with hostReplies := s.hostReplies ++ [.register i v] })

/-- CAP reads floor(W·H·6/8) of the current WIDTH and HEIGHT, the value fits 64 bits, and it reads 0 after reset
(10_state.md section 2). -/
def Obligations.CapRegister : Prop :=
  (∀ s : State, registerValue 7 s = some (s.width.toNat * s.height.toNat * 6 / 8) ∧
    s.width.toNat * s.height.toNat * 6 / 8 < 2 ^ 64) ∧
  registerValue 7 State.reset = some 0

/-- 10_state.md R20: WIDTH and HEIGHT accept every 32-bit value, read back as written, change nothing else but CAP, which
follows; the grid commands check W·H against MAXPIX; both are 0 after reset. -/
def Obligations.GridRegisters : Prop :=
  (∀ (s : State) (v : Word),
    performAction (.writeReg 2 v.toNat) s = .next { s with width := v } ∧
    registerValue 2 { s with width := v } = some v.toNat ∧
    registerValue 7 { s with width := v } = some (v.toNat * s.height.toNat * 6 / 8) ∧
    performAction (.writeReg 3 v.toNat) s = .next { s with height := v } ∧
    registerValue 3 { s with height := v } = some v.toNat ∧
    registerValue 7 { s with height := v } = some (s.width.toNat * v.toNat * 6 / 8)) ∧
  (∀ s : State, s.width.toNat * s.height.toNat > s.config.maxPix →
    exec .pwr s = .next (s.errorEntry 5) ∧ exec .prd s = .next (s.errorEntry 5) ∧
    (∀ e, exec (.hide e) s = .next (s.errorEntry 5)) ∧ exec .extr s = .next (s.errorEntry 5)) ∧
  State.reset.width = 0#32 ∧ State.reset.height = 0#32

/-- 10_state.md R21: QCNT accepts every 64-bit value, reads back as written, is the number of quads a successful PRD
reads, is read by no other command, and is 0 after reset. -/
def Obligations.QcntRegister : Prop :=
  (∀ (s : State) (v : DWord), performAction (.writeReg 4 v.toNat) s = .next { s with qcnt := v } ∧
    registerValue 4 { s with qcnt := v } = some v.toNat) ∧
  (∀ s t : State, exec .prd s = .next t → t.err = 0#4 → t.q.length = s.qcnt.toNat) ∧
  (∀ (i : Instr) (s : State) (v : DWord), i ≠ .prd →
    (∀ t, exec i s = .next t → exec i { s with qcnt := v } = .next { t with qcnt := v }) ∧
    (∀ f, exec i s = .fault f → exec i { s with qcnt := v } = .fault f)) ∧
  State.reset.qcnt = 0#64

/-- Buffer loads and pixel accesses within their bounds (10_state.md section 7). -/
def Obligations.HostLoadsAndPixels : Prop :=
  ∀ s : State,
    (∀ bytes, bytes.length ≤ s.config.maxB → performAction (.loadIN bytes) s = .next { s with inBuf := bytes }) ∧
    (∀ quads, quads.length ≤ s.config.maxQ → performAction (.loadQ quads) s = .next { s with q := quads }) ∧
    (∀ a v, a < 3 * s.config.maxPix → ∃ t, performAction (.writePix a v) s = .next t ∧ t = { s with pix := t.pix } ∧
      Memory.read t.pix a = some v ∧ ∀ b, b ≠ a → Memory.read t.pix b = Memory.read s.pix b) ∧
    (∀ a v, a < 3 * s.config.maxPix → Memory.read s.pix a = some v →
      performAction (.readPix a) s = .next { s with hostReplies := s.hostReplies ++ [.pixel a v] }) ∧
    (∀ a, a < 3 * s.config.maxPix → Memory.read s.pix a = none →
      performAction (.readPix a) s = .fault .unwrittenPixel) ∧
    performAction .readIN s = .next { s with hostReplies := s.hostReplies ++ [.bytes s.inBuf] } ∧
    performAction .readQ s = .next { s with hostReplies := s.hostReplies ++ [.quads s.q] } ∧
    performAction .readOUT s = .next { s with hostReplies := s.hostReplies ++ [.bytes s.out] }

/-- 10_state.md R35: every host access outside R33 is refused, and no other is. -/
def Obligations.RefusedAccesses : Prop :=
  ∀ (a : HostAction) (s : State),
    (∃ r, performAction a s = .refused r) ↔
      ((∃ i, a = .readReg i ∧ (i = 0 ∨ 11 ≤ i)) ∨
        (∃ i v, a = .writeReg i v ∧ (i = 1 ∨ 5 ≤ i)) ∨
        (∃ i v, a = .writeReg i v ∧ ((i = 0 ∨ i = 2 ∨ i = 3) ∧ 2 ^ 32 ≤ v ∨ i = 4 ∧ 2 ^ 64 ≤ v)) ∨
        (∃ bytes, a = .loadIN bytes ∧ s.config.maxB < bytes.length) ∨
        (∃ quads, a = .loadQ quads ∧ s.config.maxQ < quads.length) ∨
        (∃ p v, a = .writePix p v ∧ 3 * s.config.maxPix ≤ p) ∨
        (∃ p, a = .readPix p ∧ 3 * s.config.maxPix ≤ p))

/-- 20_memory.md R43: a CMD write executes its command; host reads change nothing but what the host has received, PRD and
EXTR never write PIX, and no other access executes a command: any other write changes only what it names. -/
def Obligations.ReadsHaveNoSideEffect : Prop :=
  (∀ (w : Word) (s : State), performAction (.writeReg 0 w.toNat) s = issueCommand w s) ∧
  (∀ (a : HostAction) (s t : State),
    ((∃ i, a = .readReg i) ∨ a = .readIN ∨ a = .readQ ∨ a = .readOUT ∨ ∃ p, a = .readPix p) →
    performAction a s = .next t → t = { s with hostReplies := t.hostReplies }) ∧
  (∀ (i : Instr) (s t : State), (i = .prd ∨ i = .extr) → exec i s = .next t → t.pix = s.pix) ∧
  (∀ (a : HostAction) (s t : State), a ≠ .reset → (∀ v, a ≠ .writeReg 0 v) → performAction a s = .next t →
    t.status = s.status ∧ t.magic = s.magic ∧ t.len = s.len ∧ t.out = s.out ∧
    ((∀ quads, a ≠ .loadQ quads) → t.q = s.q) ∧ ((∀ p v, a ≠ .writePix p v) → t.pix = s.pix) ∧
    ((∀ bytes, a ≠ .loadIN bytes) → t.inBuf = s.inBuf) ∧ ((∀ v, a ≠ .writeReg 2 v) → t.width = s.width) ∧
    ((∀ v, a ≠ .writeReg 3 v) → t.height = s.height) ∧ ((∀ v, a ≠ .writeReg 4 v) → t.qcnt = s.qcnt))
end

