-- ==== Sys2Proof/Laws/Codec.lean ====
section
/-! SUPPORT. The codec functions, one lemma per fact the commands rest on. -/

namespace Sys2Proof.Machine

@[simp] theorem byteToQuads_length (b : Byte) : (byteToQuads b).length = 4 := rfl

theorem quadsToByte_byteToQuads (b : Byte) :
    quadsToByte (b.extractLsb' 6 2) (b.extractLsb' 4 2) (b.extractLsb' 2 2) (b.extractLsb' 0 2) = b := by
  revert b; decide +kernel

theorem byteToQuads_quadsToByte (q0 q1 q2 q3 : Quad) : byteToQuads (quadsToByte q0 q1 q2 q3) = [q0, q1, q2, q3] := by
  revert q0 q1 q2 q3; decide +kernel

/-- Lane i of a byte, as a quotient (40_symbol_codec.md R58). -/
theorem byteToQuads_getElem? (b : Byte) (i : Nat) (h : i < 4) :
    (byteToQuads b)[i]? = some (BitVec.ofNat 2 (b.toNat / 4 ^ (3 - i))) := by
  have : ∀ b : Byte, ∀ i : Fin 4, (byteToQuads b)[i.val]? = some (BitVec.ofNat 2 (b.toNat / 4 ^ (3 - i.val))) := by
    decide +kernel
  exact this b ⟨i, h⟩

@[simp] theorem length_flatMap_byteToQuads (bs : List Byte) : (bs.flatMap byteToQuads).length = 4 * bs.length := by
  induction bs with
  | nil => rfl
  | cons b rest ih => simp only [List.flatMap_cons, List.length_append, ih, byteToQuads_length, List.length_cons]; omega

/-- Quad i of the unpadded stream is lane i mod 4 of byte i div 4. -/
theorem flatMap_byteToQuads_getElem? (bs : List Byte) (i : Nat) (b : Byte) (h : bs[i / 4]? = some b) :
    (bs.flatMap byteToQuads)[i]? = some (BitVec.ofNat 2 (b.toNat / 4 ^ (3 - i % 4))) := by
  induction bs generalizing i with
  | nil => simp at h
  | cons c rest ih =>
    rw [List.flatMap_cons]
    rcases Nat.lt_or_ge i 4 with hi | hi
    · rw [List.getElem?_append_left (by simpa using hi), byteToQuads_getElem? c i hi, Nat.mod_eq_of_lt hi]
      rw [Nat.div_eq_of_lt hi] at h
      cases h; rfl
    · rw [List.getElem?_append_right (by simpa using hi), byteToQuads_length]
      have hd : i / 4 = (i - 4) / 4 + 1 := by omega
      rw [hd, List.getElem?_cons_succ] at h
      rw [ih (i - 4) h]
      congr 4
      omega

theorem padCount_lt (n : Nat) {p : Nat} (hp : 1 ≤ p) : padCount n p < p := Nat.mod_lt _ (by omega)

/-- The padding takes a stream of n quads exactly to the padded length. -/
theorem add_padCount (n : Nat) {p : Nat} (hp : 1 ≤ p) : n + padCount n p = paddedLength n p := by
  unfold padCount paddedLength
  have hm := Nat.div_add_mod n p
  have hlt := Nat.mod_lt n (show p > 0 by omega)
  rcases Nat.eq_zero_or_pos (n % p) with h0 | h0
  · have hd : (n + p - 1) / p = n / p := by
      rw [← hm, h0]
      rw [show p * (n / p) + 0 + p - 1 = (p - 1) + p * (n / p) by omega, Nat.add_mul_div_left _ _ (by omega),
        Nat.div_eq_of_lt (by omega)]
      simp [Nat.mul_div_cancel_left _ (show 0 < p by omega)]
    rw [h0, Nat.sub_zero, Nat.mod_self, hd, Nat.mul_comm]
    omega
  · have hd : (n + p - 1) / p = n / p + 1 := by
      conv_lhs => rw [← hm]
      rw [show p * (n / p) + n % p + p - 1 = (n % p - 1) + p * (n / p + 1) by rw [Nat.mul_add]; omega,
        Nat.add_mul_div_left _ _ (by omega), Nat.div_eq_of_lt (by omega)]
      omega
    rw [hd, Nat.mod_eq_of_lt (by omega), Nat.mul_comm, Nat.mul_add]
    omega

/-- The length of a serialized stream (40_symbol_codec.md R62). -/
theorem serialize_length (bs : List Byte) {p : Nat} (hp : 1 ≤ p) :
    (serialize bs p).length = paddedLength (4 * bs.length) p := by
  rw [serialize, List.length_append, List.length_replicate, length_flatMap_byteToQuads, add_padCount _ hp]

/-- Below the padding a serialized stream is the unpadded stream. -/
theorem serialize_getElem?_lt (bs : List Byte) (p i : Nat) (h : i < 4 * bs.length) :
    (serialize bs p)[i]? = (bs.flatMap byteToQuads)[i]? := by
  unfold serialize
  rw [List.getElem?_append_left (by rwa [length_flatMap_byteToQuads])]

/-- The padding quads are zero. -/
theorem serialize_getElem?_pad (bs : List Byte) (p i : Nat) (h : 4 * bs.length ≤ i) (hi : i < (serialize bs p).length) :
    (serialize bs p)[i]? = some 0#2 := by
  unfold serialize at hi ⊢
  rw [List.getElem?_append_right (by rwa [length_flatMap_byteToQuads]), List.getElem?_replicate]
  simp only [List.length_append, List.length_replicate, length_flatMap_byteToQuads] at hi ⊢
  rw [if_pos (by omega)]

theorem deserialize_length (qs : List Quad) : (deserialize qs).length = qs.length / 4 := by
  induction qs using deserialize.induct with
  | case1 q0 q1 q2 q3 rest ih => simp only [deserialize, List.length_cons, ih]; omega
  | case2 qs h =>
    match qs with
    | [] | [_] | [_, _] | [_, _, _] => simp [deserialize]
    | q0 :: q1 :: q2 :: q3 :: rest => exact absurd rfl (h q0 q1 q2 q3 rest)

/-- Deserializing a serialized byte in front of a stream gives that byte in front. -/
theorem deserialize_byteToQuads_append (b : Byte) (qs : List Quad) :
    deserialize (byteToQuads b ++ qs) = b :: deserialize qs := by
  show quadsToByte _ _ _ _ :: deserialize qs = _
  rw [quadsToByte_byteToQuads]

theorem deserialize_flatMap_append (bs : List Byte) (qs : List Quad) :
    deserialize (bs.flatMap byteToQuads ++ qs) = bs ++ deserialize qs := by
  induction bs with
  | nil => rfl
  | cons b rest ih => rw [List.flatMap_cons, List.append_assoc, deserialize_byteToQuads_append, ih]; rfl

/-- A stream of fewer than four quads deserializes to nothing. -/
theorem deserialize_of_length_lt {qs : List Quad} (h : qs.length < 4) : deserialize qs = [] :=
  List.length_eq_zero_iff.mp (by rw [deserialize_length]; omega)

end Sys2Proof.Machine
end

