-- ==== Sys2Proof/Laws/Decode.lean ====
section
/-! SUPPORT. The fields of a command word as numbers, and the decoder inverted: what an accepted word looks like. -/

namespace Sys2Proof

theorem fieldOp_toNat (w : Word) : (fieldOp w).toNat = w.toNat % 16 := by
  simp [fieldOp, BitVec.extractLsb'_toNat]

theorem fieldRes0_toNat (w : Word) : (fieldRes0 w).toNat = w.toNat / 2 ^ 5 % 8 := by
  simp [fieldRes0, BitVec.extractLsb'_toNat, Nat.shiftRight_eq_div_pow]

theorem fieldPB_toNat (w : Word) : (fieldPB w).toNat = w.toNat / 2 ^ 8 % 256 := by
  simp [fieldPB, BitVec.extractLsb'_toNat, Nat.shiftRight_eq_div_pow]

theorem fieldRes1_toNat (w : Word) : (fieldRes1 w).toNat = w.toNat / 2 ^ 16 := by
  have := w.isLt
  simp only [fieldRes1, BitVec.extractLsb'_toNat, Nat.shiftRight_eq_div_pow]
  omega

theorem fieldE_eq (w : Word) : fieldE w = decide (w.toNat / 2 ^ 4 % 2 = 1) := by
  rw [Bool.eq_iff_iff]
  simp [fieldE, BitVec.getLsbD, Nat.testBit, Nat.shiftRight_eq_div_pow, Nat.one_and_eq_mod_two]

/-- What a word the decoder accepts looks like, and which command it is (30_encoding.md R53). -/
theorem decode_ok {w : Word} {i : Instr} (h : decode w = .ok i) :
    ∃ op, opOfCode (fieldOp w) = some op ∧ fieldRes1 w = 0#16 ∧ fieldRes0 w = 0#3 ∧
      (fieldE w = true → op = .hide) ∧ (fieldPB w ≠ 0#8 → op = .ser) ∧
      i = instrOfOp op (fieldE w) (fieldPB w).toNat := by
  unfold decode at h
  cases hop : opOfCode (fieldOp w) with
  | none => simp [hop] at h
  | some op =>
    simp only [hop] at h
    split at h
    · cases h
    next hres =>
    split at h
    · cases h
    next he =>
    split at h
    · cases h
    next hpb =>
    rw [not_or, not_not, not_not] at hres
    exact ⟨op, rfl, hres.1, hres.2, fun h1 => by_contra fun h2 => he ⟨h1, h2⟩,
      fun h1 => by_contra fun h2 => hpb ⟨h1, h2⟩, (Except.ok.inj h).symm⟩

end Sys2Proof
end

