-- ==== Sys2Proof/Laws/State.lean ====
section
/-! SUPPORT. What every update of State leaves in every field. -/

namespace Sys2Proof.Machine

variable (s : State)

@[simp] theorem State.setErr_status (code : BitVec 4) : (s.setErr code).status = statusWithErr s.status code := rfl
@[simp] theorem State.setErr_width (code : BitVec 4) : (s.setErr code).width = s.width := rfl
@[simp] theorem State.setErr_height (code : BitVec 4) : (s.setErr code).height = s.height := rfl
@[simp] theorem State.setErr_qcnt (code : BitVec 4) : (s.setErr code).qcnt = s.qcnt := rfl
@[simp] theorem State.setErr_magic (code : BitVec 4) : (s.setErr code).magic = s.magic := rfl
@[simp] theorem State.setErr_len (code : BitVec 4) : (s.setErr code).len = s.len := rfl
@[simp] theorem State.setErr_inBuf (code : BitVec 4) : (s.setErr code).inBuf = s.inBuf := rfl
@[simp] theorem State.setErr_q (code : BitVec 4) : (s.setErr code).q = s.q := rfl
@[simp] theorem State.setErr_out (code : BitVec 4) : (s.setErr code).out = s.out := rfl
@[simp] theorem State.setErr_pix (code : BitVec 4) : (s.setErr code).pix = s.pix := rfl
@[simp] theorem State.setErr_config (code : BitVec 4) : (s.setErr code).config = s.config := rfl
@[simp] theorem State.setErr_hostActions (code : BitVec 4) : (s.setErr code).hostActions = s.hostActions := rfl
@[simp] theorem State.setErr_hostReplies (code : BitVec 4) : (s.setErr code).hostReplies = s.hostReplies := rfl
@[simp] theorem State.setErr_gridPixels (code : BitVec 4) : (s.setErr code).gridPixels = s.gridPixels := rfl
@[simp] theorem State.setErr_gridChannels (code : BitVec 4) : (s.setErr code).gridChannels = s.gridChannels := rfl
@[simp] theorem State.setErr_cap (code : BitVec 4) : (s.setErr code).cap = s.cap := rfl

@[simp] theorem State.setEncf_status (e : Bool) : (s.setEncf e).status = statusWithEncf s.status e := rfl
@[simp] theorem State.setEncf_width (e : Bool) : (s.setEncf e).width = s.width := rfl
@[simp] theorem State.setEncf_height (e : Bool) : (s.setEncf e).height = s.height := rfl
@[simp] theorem State.setEncf_qcnt (e : Bool) : (s.setEncf e).qcnt = s.qcnt := rfl
@[simp] theorem State.setEncf_magic (e : Bool) : (s.setEncf e).magic = s.magic := rfl
@[simp] theorem State.setEncf_len (e : Bool) : (s.setEncf e).len = s.len := rfl
@[simp] theorem State.setEncf_inBuf (e : Bool) : (s.setEncf e).inBuf = s.inBuf := rfl
@[simp] theorem State.setEncf_q (e : Bool) : (s.setEncf e).q = s.q := rfl
@[simp] theorem State.setEncf_out (e : Bool) : (s.setEncf e).out = s.out := rfl
@[simp] theorem State.setEncf_pix (e : Bool) : (s.setEncf e).pix = s.pix := rfl
@[simp] theorem State.setEncf_config (e : Bool) : (s.setEncf e).config = s.config := rfl
@[simp] theorem State.setEncf_hostActions (e : Bool) : (s.setEncf e).hostActions = s.hostActions := rfl
@[simp] theorem State.setEncf_hostReplies (e : Bool) : (s.setEncf e).hostReplies = s.hostReplies := rfl
@[simp] theorem State.setEncf_gridPixels (e : Bool) : (s.setEncf e).gridPixels = s.gridPixels := rfl
@[simp] theorem State.setEncf_gridChannels (e : Bool) : (s.setEncf e).gridChannels = s.gridChannels := rfl
@[simp] theorem State.setEncf_cap (e : Bool) : (s.setEncf e).cap = s.cap := rfl

@[simp] theorem State.setFrame_status (magic : Word) (len : DWord) : (s.setFrame magic len).status = s.status := rfl
@[simp] theorem State.setFrame_width (magic : Word) (len : DWord) : (s.setFrame magic len).width = s.width := rfl
@[simp] theorem State.setFrame_height (magic : Word) (len : DWord) : (s.setFrame magic len).height = s.height := rfl
@[simp] theorem State.setFrame_qcnt (magic : Word) (len : DWord) : (s.setFrame magic len).qcnt = s.qcnt := rfl
@[simp] theorem State.setFrame_magic (magic : Word) (len : DWord) : (s.setFrame magic len).magic = magic := rfl
@[simp] theorem State.setFrame_len (magic : Word) (len : DWord) : (s.setFrame magic len).len = len := rfl
@[simp] theorem State.setFrame_inBuf (magic : Word) (len : DWord) : (s.setFrame magic len).inBuf = s.inBuf := rfl
@[simp] theorem State.setFrame_q (magic : Word) (len : DWord) : (s.setFrame magic len).q = s.q := rfl
@[simp] theorem State.setFrame_out (magic : Word) (len : DWord) : (s.setFrame magic len).out = s.out := rfl
@[simp] theorem State.setFrame_pix (magic : Word) (len : DWord) : (s.setFrame magic len).pix = s.pix := rfl
@[simp] theorem State.setFrame_config (magic : Word) (len : DWord) : (s.setFrame magic len).config = s.config := rfl
@[simp] theorem State.setFrame_hostActions (magic : Word) (len : DWord) : (s.setFrame magic len).hostActions = s.hostActions := rfl
@[simp] theorem State.setFrame_hostReplies (magic : Word) (len : DWord) : (s.setFrame magic len).hostReplies = s.hostReplies := rfl
@[simp] theorem State.setFrame_gridPixels (magic : Word) (len : DWord) : (s.setFrame magic len).gridPixels = s.gridPixels := rfl
@[simp] theorem State.setFrame_gridChannels (magic : Word) (len : DWord) : (s.setFrame magic len).gridChannels = s.gridChannels := rfl
@[simp] theorem State.setFrame_cap (magic : Word) (len : DWord) : (s.setFrame magic len).cap = s.cap := rfl

@[simp] theorem State.setWidth_status (v : Word) : (s.setWidth v).status = s.status := rfl
@[simp] theorem State.setWidth_width (v : Word) : (s.setWidth v).width = v := rfl
@[simp] theorem State.setWidth_height (v : Word) : (s.setWidth v).height = s.height := rfl
@[simp] theorem State.setWidth_qcnt (v : Word) : (s.setWidth v).qcnt = s.qcnt := rfl
@[simp] theorem State.setWidth_magic (v : Word) : (s.setWidth v).magic = s.magic := rfl
@[simp] theorem State.setWidth_len (v : Word) : (s.setWidth v).len = s.len := rfl
@[simp] theorem State.setWidth_inBuf (v : Word) : (s.setWidth v).inBuf = s.inBuf := rfl
@[simp] theorem State.setWidth_q (v : Word) : (s.setWidth v).q = s.q := rfl
@[simp] theorem State.setWidth_out (v : Word) : (s.setWidth v).out = s.out := rfl
@[simp] theorem State.setWidth_pix (v : Word) : (s.setWidth v).pix = s.pix := rfl
@[simp] theorem State.setWidth_config (v : Word) : (s.setWidth v).config = s.config := rfl
@[simp] theorem State.setWidth_hostActions (v : Word) : (s.setWidth v).hostActions = s.hostActions := rfl
@[simp] theorem State.setWidth_hostReplies (v : Word) : (s.setWidth v).hostReplies = s.hostReplies := rfl

@[simp] theorem State.setHeight_status (v : Word) : (s.setHeight v).status = s.status := rfl
@[simp] theorem State.setHeight_width (v : Word) : (s.setHeight v).width = s.width := rfl
@[simp] theorem State.setHeight_height (v : Word) : (s.setHeight v).height = v := rfl
@[simp] theorem State.setHeight_qcnt (v : Word) : (s.setHeight v).qcnt = s.qcnt := rfl
@[simp] theorem State.setHeight_magic (v : Word) : (s.setHeight v).magic = s.magic := rfl
@[simp] theorem State.setHeight_len (v : Word) : (s.setHeight v).len = s.len := rfl
@[simp] theorem State.setHeight_inBuf (v : Word) : (s.setHeight v).inBuf = s.inBuf := rfl
@[simp] theorem State.setHeight_q (v : Word) : (s.setHeight v).q = s.q := rfl
@[simp] theorem State.setHeight_out (v : Word) : (s.setHeight v).out = s.out := rfl
@[simp] theorem State.setHeight_pix (v : Word) : (s.setHeight v).pix = s.pix := rfl
@[simp] theorem State.setHeight_config (v : Word) : (s.setHeight v).config = s.config := rfl
@[simp] theorem State.setHeight_hostActions (v : Word) : (s.setHeight v).hostActions = s.hostActions := rfl
@[simp] theorem State.setHeight_hostReplies (v : Word) : (s.setHeight v).hostReplies = s.hostReplies := rfl

@[simp] theorem State.setQcnt_status (v : DWord) : (s.setQcnt v).status = s.status := rfl
@[simp] theorem State.setQcnt_width (v : DWord) : (s.setQcnt v).width = s.width := rfl
@[simp] theorem State.setQcnt_height (v : DWord) : (s.setQcnt v).height = s.height := rfl
@[simp] theorem State.setQcnt_qcnt (v : DWord) : (s.setQcnt v).qcnt = v := rfl
@[simp] theorem State.setQcnt_magic (v : DWord) : (s.setQcnt v).magic = s.magic := rfl
@[simp] theorem State.setQcnt_len (v : DWord) : (s.setQcnt v).len = s.len := rfl
@[simp] theorem State.setQcnt_inBuf (v : DWord) : (s.setQcnt v).inBuf = s.inBuf := rfl
@[simp] theorem State.setQcnt_q (v : DWord) : (s.setQcnt v).q = s.q := rfl
@[simp] theorem State.setQcnt_out (v : DWord) : (s.setQcnt v).out = s.out := rfl
@[simp] theorem State.setQcnt_pix (v : DWord) : (s.setQcnt v).pix = s.pix := rfl
@[simp] theorem State.setQcnt_config (v : DWord) : (s.setQcnt v).config = s.config := rfl
@[simp] theorem State.setQcnt_hostActions (v : DWord) : (s.setQcnt v).hostActions = s.hostActions := rfl
@[simp] theorem State.setQcnt_hostReplies (v : DWord) : (s.setQcnt v).hostReplies = s.hostReplies := rfl
@[simp] theorem State.setQcnt_gridPixels (v : DWord) : (s.setQcnt v).gridPixels = s.gridPixels := rfl
@[simp] theorem State.setQcnt_gridChannels (v : DWord) : (s.setQcnt v).gridChannels = s.gridChannels := rfl
@[simp] theorem State.setQcnt_cap (v : DWord) : (s.setQcnt v).cap = s.cap := rfl

@[simp] theorem State.setIn_status (bytes : List Byte) : (s.setIn bytes).status = s.status := rfl
@[simp] theorem State.setIn_width (bytes : List Byte) : (s.setIn bytes).width = s.width := rfl
@[simp] theorem State.setIn_height (bytes : List Byte) : (s.setIn bytes).height = s.height := rfl
@[simp] theorem State.setIn_qcnt (bytes : List Byte) : (s.setIn bytes).qcnt = s.qcnt := rfl
@[simp] theorem State.setIn_magic (bytes : List Byte) : (s.setIn bytes).magic = s.magic := rfl
@[simp] theorem State.setIn_len (bytes : List Byte) : (s.setIn bytes).len = s.len := rfl
@[simp] theorem State.setIn_inBuf (bytes : List Byte) : (s.setIn bytes).inBuf = bytes := rfl
@[simp] theorem State.setIn_q (bytes : List Byte) : (s.setIn bytes).q = s.q := rfl
@[simp] theorem State.setIn_out (bytes : List Byte) : (s.setIn bytes).out = s.out := rfl
@[simp] theorem State.setIn_pix (bytes : List Byte) : (s.setIn bytes).pix = s.pix := rfl
@[simp] theorem State.setIn_config (bytes : List Byte) : (s.setIn bytes).config = s.config := rfl
@[simp] theorem State.setIn_hostActions (bytes : List Byte) : (s.setIn bytes).hostActions = s.hostActions := rfl
@[simp] theorem State.setIn_hostReplies (bytes : List Byte) : (s.setIn bytes).hostReplies = s.hostReplies := rfl
@[simp] theorem State.setIn_gridPixels (bytes : List Byte) : (s.setIn bytes).gridPixels = s.gridPixels := rfl
@[simp] theorem State.setIn_gridChannels (bytes : List Byte) : (s.setIn bytes).gridChannels = s.gridChannels := rfl
@[simp] theorem State.setIn_cap (bytes : List Byte) : (s.setIn bytes).cap = s.cap := rfl

@[simp] theorem State.setQ_status (quads : List Quad) : (s.setQ quads).status = s.status := rfl
@[simp] theorem State.setQ_width (quads : List Quad) : (s.setQ quads).width = s.width := rfl
@[simp] theorem State.setQ_height (quads : List Quad) : (s.setQ quads).height = s.height := rfl
@[simp] theorem State.setQ_qcnt (quads : List Quad) : (s.setQ quads).qcnt = s.qcnt := rfl
@[simp] theorem State.setQ_magic (quads : List Quad) : (s.setQ quads).magic = s.magic := rfl
@[simp] theorem State.setQ_len (quads : List Quad) : (s.setQ quads).len = s.len := rfl
@[simp] theorem State.setQ_inBuf (quads : List Quad) : (s.setQ quads).inBuf = s.inBuf := rfl
@[simp] theorem State.setQ_q (quads : List Quad) : (s.setQ quads).q = quads := rfl
@[simp] theorem State.setQ_out (quads : List Quad) : (s.setQ quads).out = s.out := rfl
@[simp] theorem State.setQ_pix (quads : List Quad) : (s.setQ quads).pix = s.pix := rfl
@[simp] theorem State.setQ_config (quads : List Quad) : (s.setQ quads).config = s.config := rfl
@[simp] theorem State.setQ_hostActions (quads : List Quad) : (s.setQ quads).hostActions = s.hostActions := rfl
@[simp] theorem State.setQ_hostReplies (quads : List Quad) : (s.setQ quads).hostReplies = s.hostReplies := rfl
@[simp] theorem State.setQ_gridPixels (quads : List Quad) : (s.setQ quads).gridPixels = s.gridPixels := rfl
@[simp] theorem State.setQ_gridChannels (quads : List Quad) : (s.setQ quads).gridChannels = s.gridChannels := rfl
@[simp] theorem State.setQ_cap (quads : List Quad) : (s.setQ quads).cap = s.cap := rfl

@[simp] theorem State.setOut_status (bytes : List Byte) : (s.setOut bytes).status = s.status := rfl
@[simp] theorem State.setOut_width (bytes : List Byte) : (s.setOut bytes).width = s.width := rfl
@[simp] theorem State.setOut_height (bytes : List Byte) : (s.setOut bytes).height = s.height := rfl
@[simp] theorem State.setOut_qcnt (bytes : List Byte) : (s.setOut bytes).qcnt = s.qcnt := rfl
@[simp] theorem State.setOut_magic (bytes : List Byte) : (s.setOut bytes).magic = s.magic := rfl
@[simp] theorem State.setOut_len (bytes : List Byte) : (s.setOut bytes).len = s.len := rfl
@[simp] theorem State.setOut_inBuf (bytes : List Byte) : (s.setOut bytes).inBuf = s.inBuf := rfl
@[simp] theorem State.setOut_q (bytes : List Byte) : (s.setOut bytes).q = s.q := rfl
@[simp] theorem State.setOut_out (bytes : List Byte) : (s.setOut bytes).out = bytes := rfl
@[simp] theorem State.setOut_pix (bytes : List Byte) : (s.setOut bytes).pix = s.pix := rfl
@[simp] theorem State.setOut_config (bytes : List Byte) : (s.setOut bytes).config = s.config := rfl
@[simp] theorem State.setOut_hostActions (bytes : List Byte) : (s.setOut bytes).hostActions = s.hostActions := rfl
@[simp] theorem State.setOut_hostReplies (bytes : List Byte) : (s.setOut bytes).hostReplies = s.hostReplies := rfl
@[simp] theorem State.setOut_gridPixels (bytes : List Byte) : (s.setOut bytes).gridPixels = s.gridPixels := rfl
@[simp] theorem State.setOut_gridChannels (bytes : List Byte) : (s.setOut bytes).gridChannels = s.gridChannels := rfl
@[simp] theorem State.setOut_cap (bytes : List Byte) : (s.setOut bytes).cap = s.cap := rfl

@[simp] theorem State.setPix_status (m : Memory) : (s.setPix m).status = s.status := rfl
@[simp] theorem State.setPix_width (m : Memory) : (s.setPix m).width = s.width := rfl
@[simp] theorem State.setPix_height (m : Memory) : (s.setPix m).height = s.height := rfl
@[simp] theorem State.setPix_qcnt (m : Memory) : (s.setPix m).qcnt = s.qcnt := rfl
@[simp] theorem State.setPix_magic (m : Memory) : (s.setPix m).magic = s.magic := rfl
@[simp] theorem State.setPix_len (m : Memory) : (s.setPix m).len = s.len := rfl
@[simp] theorem State.setPix_inBuf (m : Memory) : (s.setPix m).inBuf = s.inBuf := rfl
@[simp] theorem State.setPix_q (m : Memory) : (s.setPix m).q = s.q := rfl
@[simp] theorem State.setPix_out (m : Memory) : (s.setPix m).out = s.out := rfl
@[simp] theorem State.setPix_pix (m : Memory) : (s.setPix m).pix = m := rfl
@[simp] theorem State.setPix_config (m : Memory) : (s.setPix m).config = s.config := rfl
@[simp] theorem State.setPix_hostActions (m : Memory) : (s.setPix m).hostActions = s.hostActions := rfl
@[simp] theorem State.setPix_hostReplies (m : Memory) : (s.setPix m).hostReplies = s.hostReplies := rfl
@[simp] theorem State.setPix_gridPixels (m : Memory) : (s.setPix m).gridPixels = s.gridPixels := rfl
@[simp] theorem State.setPix_gridChannels (m : Memory) : (s.setPix m).gridChannels = s.gridChannels := rfl
@[simp] theorem State.setPix_cap (m : Memory) : (s.setPix m).cap = s.cap := rfl

@[simp] theorem State.setActions_status (actions : List HostAction) : (s.setActions actions).status = s.status := rfl
@[simp] theorem State.setActions_width (actions : List HostAction) : (s.setActions actions).width = s.width := rfl
@[simp] theorem State.setActions_height (actions : List HostAction) : (s.setActions actions).height = s.height := rfl
@[simp] theorem State.setActions_qcnt (actions : List HostAction) : (s.setActions actions).qcnt = s.qcnt := rfl
@[simp] theorem State.setActions_magic (actions : List HostAction) : (s.setActions actions).magic = s.magic := rfl
@[simp] theorem State.setActions_len (actions : List HostAction) : (s.setActions actions).len = s.len := rfl
@[simp] theorem State.setActions_inBuf (actions : List HostAction) : (s.setActions actions).inBuf = s.inBuf := rfl
@[simp] theorem State.setActions_q (actions : List HostAction) : (s.setActions actions).q = s.q := rfl
@[simp] theorem State.setActions_out (actions : List HostAction) : (s.setActions actions).out = s.out := rfl
@[simp] theorem State.setActions_pix (actions : List HostAction) : (s.setActions actions).pix = s.pix := rfl
@[simp] theorem State.setActions_config (actions : List HostAction) : (s.setActions actions).config = s.config := rfl
@[simp] theorem State.setActions_hostActions (actions : List HostAction) : (s.setActions actions).hostActions = actions := rfl
@[simp] theorem State.setActions_hostReplies (actions : List HostAction) : (s.setActions actions).hostReplies = s.hostReplies := rfl
@[simp] theorem State.setActions_gridPixels (actions : List HostAction) : (s.setActions actions).gridPixels = s.gridPixels := rfl
@[simp] theorem State.setActions_gridChannels (actions : List HostAction) : (s.setActions actions).gridChannels = s.gridChannels := rfl
@[simp] theorem State.setActions_cap (actions : List HostAction) : (s.setActions actions).cap = s.cap := rfl

@[simp] theorem State.reply_status (r : HostReply) : (s.reply r).status = s.status := rfl
@[simp] theorem State.reply_width (r : HostReply) : (s.reply r).width = s.width := rfl
@[simp] theorem State.reply_height (r : HostReply) : (s.reply r).height = s.height := rfl
@[simp] theorem State.reply_qcnt (r : HostReply) : (s.reply r).qcnt = s.qcnt := rfl
@[simp] theorem State.reply_magic (r : HostReply) : (s.reply r).magic = s.magic := rfl
@[simp] theorem State.reply_len (r : HostReply) : (s.reply r).len = s.len := rfl
@[simp] theorem State.reply_inBuf (r : HostReply) : (s.reply r).inBuf = s.inBuf := rfl
@[simp] theorem State.reply_q (r : HostReply) : (s.reply r).q = s.q := rfl
@[simp] theorem State.reply_out (r : HostReply) : (s.reply r).out = s.out := rfl
@[simp] theorem State.reply_pix (r : HostReply) : (s.reply r).pix = s.pix := rfl
@[simp] theorem State.reply_config (r : HostReply) : (s.reply r).config = s.config := rfl
@[simp] theorem State.reply_hostActions (r : HostReply) : (s.reply r).hostActions = s.hostActions := rfl
@[simp] theorem State.reply_hostReplies (r : HostReply) : (s.reply r).hostReplies = s.hostReplies ++ [r] := rfl
@[simp] theorem State.reply_gridPixels (r : HostReply) : (s.reply r).gridPixels = s.gridPixels := rfl
@[simp] theorem State.reply_gridChannels (r : HostReply) : (s.reply r).gridChannels = s.gridChannels := rfl
@[simp] theorem State.reply_cap (r : HostReply) : (s.reply r).cap = s.cap := rfl

end Sys2Proof.Machine
end

