-- ==== Sys2Proof/Laws/Flags.lean ====
section
/-! SUPPORT. The fields of STATUS after each update of it. -/

namespace Sys2Proof.Machine

theorem statusWithErr_toNat (st : Word) (c : BitVec 4) : (statusWithErr st c).toNat = st.toNat / 16 * 16 + c.toNat := by
  have h : statusWithErr st c = (st.extractLsb' 4 28 ++ c).cast (by rfl) := by
    unfold statusWithErr
    ext i hi
    simp only [BitVec.getElem_or, BitVec.getElem_and, BitVec.getElem_cast, BitVec.getElem_append, BitVec.getElem_setWidth,
      BitVec.getElem_extractLsb']
    interval_cases i <;> simp
  rw [h, BitVec.toNat_cast, BitVec.toNat_append, Nat.shiftLeft_eq, Nat.mul_comm, ← Nat.two_pow_add_eq_or_of_lt c.isLt, BitVec.extractLsb'_toNat]
  have := st.isLt
  rw [Nat.shiftRight_eq_div_pow, Nat.mod_eq_of_lt (by omega)]
  omega

theorem statusWithEncf_toNat (st : Word) (e : Bool) :
    (statusWithEncf st e).toNat = st.toNat / 32 * 32 + (if e then 16 else 0) + st.toNat % 16 := by
  have h : statusWithEncf st e = (st.extractLsb' 5 27 ++ BitVec.ofBool e ++ st.extractLsb' 0 4).cast (by rfl) := by
    unfold statusWithEncf
    cases e <;>
    · ext i hi
      simp only [BitVec.getElem_or, BitVec.getElem_and, BitVec.getElem_cast, BitVec.getElem_append,
        BitVec.getElem_extractLsb']
      interval_cases i <;> simp
  have hst := st.isLt
  rw [h, BitVec.toNat_cast, BitVec.toNat_append, Nat.shiftLeft_eq, Nat.mul_comm,
    ← Nat.two_pow_add_eq_or_of_lt (BitVec.isLt _), BitVec.toNat_append,
    Nat.shiftLeft_eq, Nat.mul_comm _ (2 ^ 1), ← Nat.two_pow_add_eq_or_of_lt (BitVec.isLt _), BitVec.extractLsb'_toNat,
    BitVec.extractLsb'_toNat, Nat.shiftRight_eq_div_pow, Nat.mod_eq_of_lt (a := st.toNat / 2 ^ 5) (by omega)]
  cases e <;> simp <;> omega

@[simp] theorem State.err_setErr (s : State) (c : BitVec 4) : (s.setErr c).err = c := by
  apply BitVec.eq_of_toNat_eq
  have := c.isLt
  simp only [State.err, State.setErr_status, BitVec.extractLsb'_toNat, statusWithErr_toNat, Nat.shiftRight_zero]
  omega

@[simp] theorem State.encf_setErr (s : State) (c : BitVec 4) : (s.setErr c).encf = s.encf := by
  simp [State.encf, statusWithErr]

@[simp] theorem State.encf_setEncf (s : State) (e : Bool) : (s.setEncf e).encf = e := by
  cases e <;> simp [State.encf, statusWithEncf]

@[simp] theorem State.err_setEncf (s : State) (e : Bool) : (s.setEncf e).err = s.err := by
  apply BitVec.eq_of_toNat_eq
  simp only [State.err, State.setEncf_status, BitVec.extractLsb'_toNat, statusWithEncf_toNat, Nat.shiftRight_zero]
  cases e <;> simp <;> omega

/-- ERR <- c as a number: bits 31:4 of STATUS stay. -/
theorem State.setErr_status_toNat (s : State) (c : BitVec 4) :
    (s.setErr c).status.toNat = s.status.toNat / 16 * 16 + c.toNat := statusWithErr_toNat _ _

/-- ENCF <- e and ERR <- c together, as HIDE and EXTR end: bits 31:5 of STATUS stay. -/
theorem State.setEncf_setErr_status_toNat (s : State) (e : Bool) (c : BitVec 4) :
    ((s.setEncf e).setErr c).status.toNat = s.status.toNat / 32 * 32 + (if e then 16 else 0) + c.toNat := by
  rw [State.setErr_status_toNat, State.setEncf_status, statusWithEncf_toNat]
  cases e <;> simp <;> omega

end Sys2Proof.Machine
end

