-- ==== Sys2Proof/Laws/Frame.lean ====
section
/-! SUPPORT. The frame functions: big-endian fields and their inverse. -/

namespace Sys2Proof.Machine

@[simp] theorem bigEndian_length (n v : Nat) : (bigEndian n v).length = n := by simp [bigEndian]

theorem bigEndian_getElem? (n v i : Nat) (h : i < n) :
    (bigEndian n v)[i]? = some (BitVec.ofNat 8 (v / 256 ^ (n - 1 - i))) := by
  simp only [bigEndian, List.getElem?_map, List.getElem?_range h, Option.map_some, Nat.shiftRight_eq_div_pow]
  rw [show (256 : Nat) = 2 ^ 8 from rfl, ← pow_mul]

theorem bigEndian_succ (n v : Nat) : bigEndian (n + 1) v = bigEndian n (v / 256) ++ [BitVec.ofNat 8 v] := by
  apply List.ext_getElem?
  intro i
  rcases Nat.lt_trichotomy i n with h | h | h
  · rw [bigEndian_getElem? _ _ _ (by omega), List.getElem?_append_left (by simpa using h),
      bigEndian_getElem? _ _ _ h, Nat.div_div_eq_div_mul, ← pow_succ',
      show n + 1 - 1 - i = n - 1 - i + 1 by omega]
  · subst h
    rw [bigEndian_getElem? _ _ _ (by omega), List.getElem?_append_right (by simp)]
    simp
  · rw [List.getElem?_eq_none (by simp; omega), List.getElem?_eq_none (by simp; omega)]

theorem bigEndianValue_append_singleton (s : List Byte) (b : Byte) :
    bigEndianValue (s ++ [b]) = bigEndianValue s * 256 + b.toNat := by
  simp [bigEndianValue, List.foldl_append]

/-- BEval inverts BE_n on the values n bytes hold (00_scope.md R11). -/
theorem bigEndianValue_bigEndian (n v : Nat) : bigEndianValue (bigEndian n v) = v % 256 ^ n := by
  induction n generalizing v with
  | zero => simp [bigEndian, bigEndianValue, Nat.mod_one]
  | succ n ih =>
    have h : v % (256 * 256 ^ n) = v % 256 + 256 * (v / 256 % 256 ^ n) := Nat.mod_mul
    rw [bigEndian_succ, bigEndianValue_append_singleton, ih, BitVec.toNat_ofNat, show (2 : Nat) ^ 8 = 256 from rfl,
      pow_succ', h]
    omega

@[simp] theorem buildFrameLSB_length (magic : Word) (payload : List Byte) :
    (buildFrameLSB magic payload).length = 12 + payload.length := by simp [buildFrameLSB]; omega

theorem buildFrameLSB_take_header (magic : Word) (payload : List Byte) :
    (buildFrameLSB magic payload).take 12 = bigEndian 4 magic.toNat ++ bigEndian 8 payload.length := by
  unfold buildFrameLSB
  rw [List.take_append_of_le_length (by simp), List.take_of_length_le (by simp)]

/-- The header of two fields parses to the fields, the length to its low 64 bits. -/
theorem parseHeaderLSB_header (magic : Word) (n : Nat) :
    parseHeaderLSB (bigEndian 4 magic.toNat ++ bigEndian 8 n) = (magic, BitVec.ofNat 64 n) := by
  unfold parseHeaderLSB
  rw [List.take_append_of_le_length (by simp), List.take_of_length_le (l := bigEndian 4 _) (by simp),
    List.drop_append_of_le_length (by simp), List.drop_eq_nil_of_le (by simp), List.nil_append,
    List.take_of_length_le (by simp), bigEndianValue_bigEndian, bigEndianValue_bigEndian]
  refine Prod.ext (BitVec.eq_of_toNat_eq ?_) (BitVec.eq_of_toNat_eq ?_)
  · have := magic.isLt; simp only [BitVec.toNat_ofNat]; omega
  · simp only [BitVec.toNat_ofNat]; omega

theorem isLSBMagic_iff (m : Word) : isLSBMagic m = true ↔ m = magicUnencryptedLSB ∨ m = magicEncryptedLSB := by
  simp [isLSBMagic]

@[simp] theorem isLSBMagic_magicFor (e : Bool) : isLSBMagic (magicFor e) = true := by cases e <;> decide

@[simp] theorem encOf_magicFor (e : Bool) : encOf (magicFor e) = e := by cases e <;> decide

end Sys2Proof.Machine
end

