-- ==== Sys2Proof/Laws/Passes.lean ====
section
/-! SUPPORT. The channel functions and the two passes over the pixel memory: when they complete and what they leave. -/

namespace Sys2Proof.Machine

theorem chanWrite_toNat (v : Byte) (q : Quad) : (chanWrite v q).toNat = v.toNat / 4 * 4 + q.toNat := by
  revert v q; decide +kernel

theorem chanRead_toNat (v : Byte) : (chanRead v).toNat = v.toNat % 4 := by
  revert v; decide +kernel

theorem chanRead_chanWrite (v : Byte) (q : Quad) : chanRead (chanWrite v q) = q := by
  revert v q; decide +kernel

/-- Everything a reading pass gives: one quad per address, in order. -/
theorem readQuads_some {m : Memory} {n start : Nat} {qs : List Quad} (h : readQuads m start n = some qs) :
    qs.length = n ∧ ∀ k, k < n → ∃ v, Memory.read m (start + k) = some v ∧ qs[k]? = some (chanRead v) := by
  induction n generalizing start qs with
  | zero => cases h; exact ⟨rfl, fun k hk => absurd hk (Nat.not_lt_zero k)⟩
  | succ n ih =>
    unfold readQuads at h
    cases hv : Memory.read m start with
    | none => simp [hv] at h
    | some v =>
      cases hr : readQuads m (start + 1) n with
      | none => simp [hv, hr] at h
      | some rest =>
        simp only [hv, hr, Option.some.injEq] at h
        subst h
        obtain ⟨hlen, hget⟩ := ih hr
        refine ⟨by simp [hlen], fun k hk => ?_⟩
        cases k with
        | zero => exact ⟨v, hv, rfl⟩
        | succ k =>
          obtain ⟨w, hw, hq⟩ := hget k (by omega)
          exact ⟨w, by rw [← hw]; congr 1; omega, by simpa using hq⟩

/-- A reading pass completes exactly when every byte it reads holds a value. -/
theorem readQuads_isSome (m : Memory) (n start : Nat) :
    (readQuads m start n).isSome = true ↔ ∀ k, k < n → (Memory.read m (start + k)).isSome = true := by
  induction n generalizing start with
  | zero => simp [readQuads]
  | succ n ih =>
    unfold readQuads
    have hshift : (∀ k, k < n + 1 → (Memory.read m (start + k)).isSome = true) ↔
        (Memory.read m start).isSome = true ∧ ∀ k, k < n → (Memory.read m (start + 1 + k)).isSome = true := by
      constructor
      · intro h
        refine ⟨h 0 (by omega), fun k hk => ?_⟩
        have := h (k + 1) (by omega)
        rwa [show start + (k + 1) = start + 1 + k by omega] at this
      · rintro ⟨h0, h⟩ k hk
        cases k with
        | zero => exact h0
        | succ k => rw [show start + (k + 1) = start + 1 + k by omega]; exact h k (by omega)
    rw [hshift, ← ih]
    cases hv : Memory.read m start with
    | none => simp
    | some v => cases hr : readQuads m (start + 1) n <;> simp

/-- A reading pass depends on the bytes it reads alone. -/
theorem readQuads_congr {m m' : Memory} {n start : Nat}
    (h : ∀ k, k < n → Memory.read m' (start + k) = Memory.read m (start + k)) :
    readQuads m' start n = readQuads m start n := by
  induction n generalizing start with
  | zero => rfl
  | succ n ih =>
    unfold readQuads
    have h0 := h 0 (by omega)
    rw [Nat.add_zero] at h0
    rw [h0, ih fun k hk => by
      have := h (k + 1) (by omega)
      rwa [show start + (k + 1) = start + 1 + k by omega] at this]

/-- Everything a writing pass leaves: the bytes it wrote, each updated from what it held, and every other byte. -/
theorem writeQuads_some {m m' : Memory} {qs : List Quad} {start : Nat} (h : writeQuads m start qs = some m') :
    (∀ a, a < start ∨ start + qs.length ≤ a → Memory.read m' a = Memory.read m a) ∧
    ∀ k q, qs[k]? = some q → ∃ v, Memory.read m (start + k) = some v ∧
      Memory.read m' (start + k) = some (chanWrite v q) := by
  induction qs generalizing m start with
  | nil => cases h; exact ⟨fun _ _ => rfl, fun k q hq => by simp at hq⟩
  | cons q0 rest ih =>
    unfold writeQuads at h
    cases hv : Memory.read m start with
    | none => simp [hv] at h
    | some v =>
      simp only [hv] at h
      obtain ⟨hout, hin⟩ := ih h
      refine ⟨fun a ha => ?_, fun k q hq => ?_⟩
      · rw [hout a (by simp only [List.length_cons] at ha; omega), Memory.read_write_ne]
        simp only [List.length_cons] at ha
        omega
      · cases k with
        | zero =>
          cases hq
          refine ⟨v, hv, ?_⟩
          rw [Nat.add_zero, hout start (by omega), Memory.read_write_same]
        | succ k =>
          rw [List.getElem?_cons_succ] at hq
          obtain ⟨w, hw, hw'⟩ := hin k q hq
          rw [show start + 1 + k = start + (k + 1) by omega] at hw hw'
          refine ⟨w, ?_, hw'⟩
          rw [← hw, Memory.read_write_ne]
          omega

/-- A writing pass completes exactly when every byte it updates holds a value. -/
theorem writeQuads_isSome (m : Memory) (qs : List Quad) (start : Nat) :
    (writeQuads m start qs).isSome = true ↔ ∀ k, k < qs.length → (Memory.read m (start + k)).isSome = true := by
  induction qs generalizing m start with
  | nil => simp [writeQuads]
  | cons q0 rest ih =>
    unfold writeQuads
    cases hv : Memory.read m start with
    | none =>
      simp only [Option.isSome_none, Bool.false_eq_true, false_iff, not_forall]
      exact ⟨0, by simp, by simp [hv]⟩
    | some v =>
      simp only
      rw [ih]
      constructor
      · intro h k hk
        cases k with
        | zero => simp [hv]
        | succ k =>
          have := h k (by simpa using hk)
          rwa [Memory.read_write_ne _ _ (by omega), show start + 1 + k = start + (k + 1) by omega] at this
      · intro h k hk
        rw [Memory.read_write_ne _ _ (by omega), show start + 1 + k = start + (k + 1) by omega]
        exact h (k + 1) (by simpa using hk)

/-- A writing pass keeps the canonical form. -/
theorem writeQuads_wf {m m' : Memory} {qs : List Quad} {start : Nat} (h : writeQuads m start qs = some m')
    (hm : Memory.wf m) : Memory.wf m' := by
  induction qs generalizing m start with
  | nil => cases h; exact hm
  | cons q rest ih =>
    unfold writeQuads at h
    cases hv : Memory.read m start with
    | none => simp [hv] at h
    | some v => simp only [hv] at h; exact ih h (Memory.write_wf _ _ hm)

/-- A writing pass below the bound keeps every address below it. -/
theorem writeQuads_below {m m' : Memory} {qs : List Quad} {start n : Nat} (h : writeQuads m start qs = some m')
    (hm : Memory.below m n) (hn : start + qs.length ≤ n) : Memory.below m' n := by
  induction qs generalizing m start with
  | nil => cases h; exact hm
  | cons q rest ih =>
    simp only [List.length_cons] at hn
    unfold writeQuads at h
    cases hv : Memory.read m start with
    | none => simp [hv] at h
    | some v =>
      simp only [hv] at h
      exact ih h (Memory.write_below _ hm (by omega)) (by omega)

end Sys2Proof.Machine
end

