-- ==== Sys2Proof/Laws/Exec.lean ====
section
/-! SUPPORT. What each command can do, said once: if its meaning answers a next state, one of the listed cases holds. -/

namespace Sys2Proof.Machine

theorem raise_eq (kind : ErrorKind) (s : State) : raise kind s = .next (s.setErr kind.code) := rfl

theorem succeed_eq (s : State) : succeed s = .next (s.setErr successCode) := rfl

/-- Error entry, in the numbers the statements use. -/
theorem State.errorEntry_eq_setErr (s : State) (c : BitVec 4) : s.errorEntry c.toNat = s.setErr c := by
  have : BitVec.ofNat 32 (s.status.toNat / 16 * 16 + c.toNat) = statusWithErr s.status c := by
    rw [← statusWithErr_toNat, BitVec.ofNat_toNat, BitVec.setWidth_eq]
  unfold State.errorEntry State.setErr
  rw [this]

/-- The error ending of a command. -/
abbrev Raises (s t : State) (kind : ErrorKind) : Prop := t = s.setErr kind.code

theorem execSer_next {pb : Nat} {s t : State} (h : execSer pb s = .next t) :
    (pb = 0 ∧ Raises s t .paramError) ∨
    (pb ≠ 0 ∧ paddedLength (4 * s.inBuf.length) pb > s.config.maxQ ∧ Raises s t .overflow) ∨
    (pb ≠ 0 ∧ paddedLength (4 * s.inBuf.length) pb ≤ s.config.maxQ ∧
      t = (s.setQ (serialize s.inBuf pb)).setErr successCode) := by
  unfold execSer at h
  split at h
  · next hp => exact .inl ⟨hp, (Host.Outcome.next.inj h).symm⟩
  · next hp =>
    split at h
    · next ho => exact .inr (.inl ⟨hp, ho, (Host.Outcome.next.inj h).symm⟩)
    · next ho => exact .inr (.inr ⟨hp, Nat.le_of_not_gt ho, (Host.Outcome.next.inj h).symm⟩)

theorem execDes_next {s t : State} (h : execDes s = .next t) :
    (s.config.strictGroups = true ∧ s.q.length % 4 ≠ 0 ∧ Raises s t .truncatedFrame) ∨
    (¬(s.config.strictGroups = true ∧ s.q.length % 4 ≠ 0) ∧ s.q.length / 4 > s.config.maxB ∧
      Raises s t .overflow) ∨
    (¬(s.config.strictGroups = true ∧ s.q.length % 4 ≠ 0) ∧ s.q.length / 4 ≤ s.config.maxB ∧
      t = (s.setOut (deserialize s.q)).setErr successCode) := by
  unfold execDes at h
  split at h
  · next hp => exact .inl ⟨hp.1, hp.2, (Host.Outcome.next.inj h).symm⟩
  · next hp =>
    split at h
    · next ho => exact .inr (.inl ⟨hp, ho, (Host.Outcome.next.inj h).symm⟩)
    · next ho => exact .inr (.inr ⟨hp, Nat.le_of_not_gt ho, (Host.Outcome.next.inj h).symm⟩)

theorem execPwr_next {s t : State} (h : execPwr s = .next t) :
    (s.gridPixels > s.config.maxPix ∧ Raises s t .paramError) ∨
    (s.gridPixels ≤ s.config.maxPix ∧ s.q.length % 3 ≠ 0 ∧ Raises s t .paramError) ∨
    (s.gridPixels ≤ s.config.maxPix ∧ s.q.length % 3 = 0 ∧ s.q.length > s.gridChannels ∧
      Raises s t .capacityExceeded) ∨
    (s.gridPixels ≤ s.config.maxPix ∧ s.q.length % 3 = 0 ∧ s.q.length ≤ s.gridChannels ∧
      ∃ m, writeQuads s.pix 0 s.q = some m ∧ t = (s.setPix m).setErr successCode) := by
  unfold execPwr at h
  split at h
  · next hg => exact .inl ⟨hg, (Host.Outcome.next.inj h).symm⟩
  next hg =>
  split at h
  · next hm => exact .inr (.inl ⟨Nat.le_of_not_gt hg, hm, (Host.Outcome.next.inj h).symm⟩)
  next hm =>
  split at h
  · next hc =>
    exact .inr (.inr (.inl ⟨Nat.le_of_not_gt hg, not_not.mp hm, hc, (Host.Outcome.next.inj h).symm⟩))
  next hc =>
  split at h
  · cases h
  · next m hw =>
    exact .inr (.inr (.inr ⟨Nat.le_of_not_gt hg, not_not.mp hm, Nat.le_of_not_gt hc, m, hw,
      (Host.Outcome.next.inj h).symm⟩))

theorem execPrd_next {s t : State} (h : execPrd s = .next t) :
    (s.gridPixels > s.config.maxPix ∧ Raises s t .paramError) ∨
    (s.gridPixels ≤ s.config.maxPix ∧ s.qcnt.toNat > s.gridChannels ∧ Raises s t .truncatedFrame) ∨
    (s.gridPixels ≤ s.config.maxPix ∧ s.qcnt.toNat ≤ s.gridChannels ∧ s.qcnt.toNat > s.config.maxQ ∧
      Raises s t .overflow) ∨
    (s.gridPixels ≤ s.config.maxPix ∧ s.qcnt.toNat ≤ s.gridChannels ∧ s.qcnt.toNat ≤ s.config.maxQ ∧
      ∃ quads, readQuads s.pix 0 s.qcnt.toNat = some quads ∧ t = (s.setQ quads).setErr successCode) := by
  unfold execPrd at h
  split at h
  · next hg => exact .inl ⟨hg, (Host.Outcome.next.inj h).symm⟩
  next hg =>
  split at h
  · next hm => exact .inr (.inl ⟨Nat.le_of_not_gt hg, hm, (Host.Outcome.next.inj h).symm⟩)
  next hm =>
  split at h
  · next hc =>
    exact .inr (.inr (.inl ⟨Nat.le_of_not_gt hg, Nat.le_of_not_gt hm, hc, (Host.Outcome.next.inj h).symm⟩))
  next hc =>
  split at h
  · cases h
  · next quads hr =>
    exact .inr (.inr (.inr ⟨Nat.le_of_not_gt hg, Nat.le_of_not_gt hm, Nat.le_of_not_gt hc, quads, hr,
      (Host.Outcome.next.inj h).symm⟩))

/-- The state of a HIDE that succeeded, PIX apart. -/
def State.hidden (s : State) (encrypted : Bool) (m : Memory) : State :=
  (((s.setPix m).setFrame (magicFor encrypted) (BitVec.ofNat 64 s.inBuf.length)).setEncf encrypted).setErr
    successCode

theorem execHide_next {e : Bool} {s t : State} (h : execHide e s = .next t) :
    (s.gridPixels > s.config.maxPix ∧ Raises s t .paramError) ∨
    (s.gridPixels ≤ s.config.maxPix ∧ framedSize s.inBuf.length > s.cap ∧ Raises s t .capacityExceeded) ∨
    (s.gridPixels ≤ s.config.maxPix ∧ framedSize s.inBuf.length ≤ s.cap ∧
      ∃ m, writeQuads s.pix 0 (serialize (buildFrameLSB (magicFor e) s.inBuf) 3) = some m ∧ t = s.hidden e m) := by
  unfold execHide at h
  split at h
  · next hg => exact .inl ⟨hg, (Host.Outcome.next.inj h).symm⟩
  next hg =>
  split at h
  · next hm => exact .inr (.inl ⟨Nat.le_of_not_gt hg, hm, (Host.Outcome.next.inj h).symm⟩)
  next hm =>
  split at h
  · cases h
  · next m hw =>
    exact .inr (.inr ⟨Nat.le_of_not_gt hg, Nat.le_of_not_gt hm, m, hw, (Host.Outcome.next.inj h).symm⟩)

/-- The state of an EXTR that succeeded. -/
def State.extracted (s : State) (magic : Word) (len : DWord) (quads : List Quad) : State :=
  (((s.setOut (deserialize quads)).setFrame magic len).setEncf (encOf magic)).setErr successCode

theorem extractPayload_next {magic : Word} {len : DWord} {s t : State} (h : extractPayload magic len s = .next t) :
    (isLSBMagic magic = false ∧ Raises s t .noHiddenData) ∨
    (isLSBMagic magic = true ∧ 48 + 4 * len.toNat > s.gridChannels ∧ Raises s t .truncatedFrame) ∨
    (isLSBMagic magic = true ∧ 48 + 4 * len.toNat ≤ s.gridChannels ∧ len.toNat > s.config.maxB ∧
      Raises s t .overflow) ∨
    (isLSBMagic magic = true ∧ 48 + 4 * len.toNat ≤ s.gridChannels ∧ len.toNat ≤ s.config.maxB ∧
      ∃ quads, readQuads s.pix 48 (4 * len.toNat) = some quads ∧ t = s.extracted magic len quads) := by
  unfold extractPayload at h
  split at h
  · next hg => exact .inl ⟨hg, (Host.Outcome.next.inj h).symm⟩
  next hg =>
  rw [Bool.not_eq_false] at hg
  split at h
  · next hm => exact .inr (.inl ⟨hg, hm, (Host.Outcome.next.inj h).symm⟩)
  next hm =>
  split at h
  · next hc => exact .inr (.inr (.inl ⟨hg, Nat.le_of_not_gt hm, hc, (Host.Outcome.next.inj h).symm⟩))
  next hc =>
  split at h
  · cases h
  · next quads hr =>
    exact .inr (.inr (.inr ⟨hg, Nat.le_of_not_gt hm, Nat.le_of_not_gt hc, quads, hr,
      (Host.Outcome.next.inj h).symm⟩))

theorem execExtr_next {s t : State} (h : execExtr s = .next t) :
    (s.gridPixels > s.config.maxPix ∧ Raises s t .paramError) ∨
    (s.gridPixels ≤ s.config.maxPix ∧ s.gridChannels < 48 ∧ Raises s t .noHiddenData) ∨
    (s.gridPixels ≤ s.config.maxPix ∧ 48 ≤ s.gridChannels ∧ ∃ header, readQuads s.pix 0 48 = some header ∧
      extractPayload (parseHeaderLSB (deserialize header)).1 (parseHeaderLSB (deserialize header)).2 s = .next t) := by
  unfold execExtr at h
  split at h
  · next hg => exact .inl ⟨hg, (Host.Outcome.next.inj h).symm⟩
  next hg =>
  split at h
  · next hm => exact .inr (.inl ⟨Nat.le_of_not_gt hg, hm, (Host.Outcome.next.inj h).symm⟩)
  next hm =>
  split at h
  · cases h
  · next header hr => exact .inr (.inr ⟨Nat.le_of_not_gt hg, Nat.le_of_not_gt hm, header, hr, h⟩)

end Sys2Proof.Machine
end

