-- ==== Sys2Proof/Laws/Header.lean ====
section
/-! SUPPORT. The quads of a frame and the header in the carrier, tied to the numbers the statements use. -/

namespace Sys2Proof.Machine

/-- BE_n inverts BEval on n bytes (00_scope.md R11). -/
theorem bigEndian_bigEndianValue (s : List Byte) : bigEndian s.length (bigEndianValue s) = s := by
  induction s using List.reverseRecOn with
  | nil => rfl
  | append_singleton s b ih =>
    rw [List.length_append, List.length_singleton, bigEndian_succ, bigEndianValue_append_singleton]
    have := b.isLt
    rw [show (bigEndianValue s * 256 + b.toNat) / 256 = bigEndianValue s by omega, ih]
    congr 2
    apply BitVec.eq_of_toNat_eq
    simp only [BitVec.toNat_ofNat]
    omega

theorem bigEndianValue_lt (s : List Byte) : bigEndianValue s < 256 ^ s.length := by
  rw [← bigEndian_bigEndianValue s, bigEndianValue_bigEndian, bigEndian_length]
  exact Nat.mod_lt _ (by positivity)

/-- Lane i of byte k of a number, counting bytes from the least significant. -/
theorem byte_lane (b k i : Nat) : b / 256 ^ k % 256 / 4 ^ (3 - i) % 4 = b / 4 ^ (4 * k + (3 - i)) % 4 := by
  have h256 : (256 : Nat) ^ k = 4 ^ (4 * k) := by rw [pow_mul]; norm_num
  rw [h256, pow_add, ← Nat.div_div_eq_div_mul]
  generalize b / 4 ^ (4 * k) = c
  have : 3 - i = 0 ∨ 3 - i = 1 ∨ 3 - i = 2 ∨ 3 - i = 3 := by omega
  rcases this with h | h | h | h <;> rw [h] <;> norm_num <;> omega

/-- Quad a of a header is digit 47 − a, to base 4, of its 96-bit number. -/
theorem header_quad (m : Word) (n : Nat) (hn : n < 2 ^ 64) (a : Nat) (ha : a < 48) :
    ((bigEndian 4 m.toNat ++ bigEndian 8 n).flatMap byteToQuads)[a]? =
      some (BitVec.ofNat 2 ((m.toNat * 2 ^ 64 + n) / 4 ^ (47 - a))) := by
  have hb : (bigEndian 4 m.toNat ++ bigEndian 8 n)[a / 4]? =
      some (BitVec.ofNat 8 ((m.toNat * 2 ^ 64 + n) / 256 ^ (11 - a / 4))) := by
    rcases Nat.lt_or_ge (a / 4) 4 with h | h
    · rw [List.getElem?_append_left (by simpa using h), bigEndian_getElem? _ _ _ h]
      congr 2
      have hm := m.isLt
      have : a / 4 = 0 ∨ a / 4 = 1 ∨ a / 4 = 2 ∨ a / 4 = 3 := by omega
      rcases this with h | h | h | h <;> rw [h] <;> norm_num <;> omega
    · rw [List.getElem?_append_right (by simpa using h), bigEndian_length, bigEndian_getElem? _ _ _ (by omega)]
      congr 1
      apply BitVec.eq_of_toNat_eq
      simp only [BitVec.toNat_ofNat]
      have : a / 4 = 4 ∨ a / 4 = 5 ∨ a / 4 = 6 ∨ a / 4 = 7 ∨ a / 4 = 8 ∨ a / 4 = 9 ∨ a / 4 = 10 ∨ a / 4 = 11 := by
        omega
      rcases this with h | h | h | h | h | h | h | h <;> rw [h] <;> norm_num <;> omega
  rw [flatMap_byteToQuads_getElem? _ _ _ hb]
  congr 1
  apply BitVec.eq_of_toNat_eq
  simp only [BitVec.toNat_ofNat]
  have := byte_lane (m.toNat * 2 ^ 64 + n) (11 - a / 4) (a % 4)
  norm_num at this ⊢
  rw [this]
  congr 3
  omega

theorem serialize_frame_length (m : Word) (b : List Byte) :
    (serialize (buildFrameLSB m b) 3).length = hiddenQuads b.length := by
  rw [serialize_length _ (by omega), buildFrameLSB_length]
  unfold paddedLength hiddenQuads
  omega

theorem hiddenQuad_lt (m : Word) (b : List Byte) (a : Nat) : hiddenQuad m b a < 4 := by
  unfold hiddenQuad
  split
  · exact Nat.mod_lt _ (by decide)
  · split
    · exact Nat.mod_lt _ (by decide)
    · decide

/-- The stream HIDE writes, quad by quad. -/
theorem serialize_frame_getElem? (m : Word) (b : List Byte) (hn : b.length < 2 ^ 64) (a : Nat)
    (ha : a < hiddenQuads b.length) :
    (serialize (buildFrameLSB m b) 3)[a]? = some (BitVec.ofNat 2 (hiddenQuad m b a)) := by
  have hll : (bigEndian 4 m.toNat ++ bigEndian 8 b.length).length = 12 := by simp
  unfold hiddenQuad
  rcases Nat.lt_or_ge a 48 with h | h
  · rw [serialize_getElem?_lt _ _ _ (by rw [buildFrameLSB_length]; omega), if_pos h]
    unfold buildFrameLSB
    rw [List.flatMap_append, List.getElem?_append_left (by rw [length_flatMap_byteToQuads, hll]; omega),
      header_quad _ _ hn _ h]
    congr 1
    apply BitVec.eq_of_toNat_eq
    simp
  rw [if_neg (by omega)]
  rcases Nat.lt_or_ge a (4 * (12 + b.length)) with h' | h'
  · have hlt : (a - 48) / 4 < b.length := by omega
    have hb : b[(a - 48) / 4]? = some b[(a - 48) / 4] := List.getElem?_eq_getElem hlt
    have hb' : (buildFrameLSB m b)[a / 4]? = some b[(a - 48) / 4] := by
      rw [← hb]
      unfold buildFrameLSB
      rw [List.getElem?_append_right (by rw [hll]; omega), hll]
      congr 1
      omega
    rw [serialize_getElem?_lt _ _ _ (by rw [buildFrameLSB_length]; omega), flatMap_byteToQuads_getElem? _ _ _ hb', hb]
    congr 1
    apply BitVec.eq_of_toNat_eq
    rw [show (a - 48) % 4 = a % 4 by omega]
    simp
  · rw [serialize_getElem?_pad _ _ _ (by rw [buildFrameLSB_length]; omega) (by rw [serialize_frame_length]; exact ha),
      List.getElem?_eq_none (by omega)]

/-- A carrier that holds a header reads and parses to it. -/
theorem State.headerIs.read {s : State} {magic : Word} {len : DWord} (h : s.headerIs magic len) :
    ∃ quads, readQuads s.pix 0 48 = some quads ∧ parseHeaderLSB (deserialize quads) = (magic, len) := by
  have hh : ∀ k, k < 48 → ∃ v, Memory.read s.pix k = some v ∧
      v.toNat % 4 = (magic.toNat * 2 ^ 64 + len.toNat) / 4 ^ (47 - k) % 4 := fun k hk =>
    Option.map_eq_some_iff.mp (h k hk)
  obtain ⟨quads, hq⟩ : ∃ quads, readQuads s.pix 0 48 = some quads := by
    apply Option.isSome_iff_exists.mp
    rw [readQuads_isSome]
    intro k hk
    obtain ⟨v, hv, -⟩ := hh k hk
    rw [Nat.zero_add, hv]
    rfl
  refine ⟨quads, hq, ?_⟩
  obtain ⟨hlen, hget⟩ := readQuads_some hq
  have hquads : quads = (bigEndian 4 magic.toNat ++ bigEndian 8 len.toNat).flatMap byteToQuads := by
    apply List.ext_getElem?
    intro k
    rcases Nat.lt_or_ge k 48 with hk | hk
    · obtain ⟨v, hv, hqk⟩ := hget k hk
      obtain ⟨v', hv', hd⟩ := hh k hk
      rw [Nat.zero_add, hv'] at hv
      cases hv
      rw [header_quad _ _ len.isLt _ hk, hqk]
      congr 1
      apply BitVec.eq_of_toNat_eq
      rw [chanRead_toNat, hd]
      simp
    · rw [List.getElem?_eq_none (by omega), List.getElem?_eq_none (by rw [length_flatMap_byteToQuads]; simp; omega)]
  rw [hquads, ← List.append_nil ((bigEndian 4 _ ++ _).flatMap _), deserialize_flatMap_append]
  simp only [deserialize, List.append_nil]
  rw [parseHeaderLSB_header]
  simp

end Sys2Proof.Machine
end

