-- ==== Sys2Proof/Laws/Host.lean ====
section
/-! SUPPORT. What one host action can do, said once: if it answers a next state, one of the listed cases holds. -/

namespace Sys2Proof.Machine

/-- Everything a host action can leave. -/
inductive ActionLeaves (s : State) : HostAction → State → Prop where
  | command {v : Nat} {t : State} : v < 2 ^ 32 → issueCommand (BitVec.ofNat 32 v) s = .next t →
      ActionLeaves s (.writeReg 0 v) t
  | width {v : Nat} : v < 2 ^ 32 → ActionLeaves s (.writeReg 2 v) (s.setWidth (BitVec.ofNat 32 v))
  | height {v : Nat} : v < 2 ^ 32 → ActionLeaves s (.writeReg 3 v) (s.setHeight (BitVec.ofNat 32 v))
  | qcnt {v : Nat} : v < 2 ^ 64 → ActionLeaves s (.writeReg 4 v) (s.setQcnt (BitVec.ofNat 64 v))
  | register {i v : Nat} : registerValue i s = some v → ActionLeaves s (.readReg i) (s.reply (.register i v))
  | loadIN {bytes : List Byte} : bytes.length ≤ s.config.maxB → ActionLeaves s (.loadIN bytes) (s.setIn bytes)
  | loadQ {quads : List Quad} : quads.length ≤ s.config.maxQ → ActionLeaves s (.loadQ quads) (s.setQ quads)
  | readIN : ActionLeaves s .readIN (s.reply (.bytes s.inBuf))
  | readQ : ActionLeaves s .readQ (s.reply (.quads s.q))
  | readOUT : ActionLeaves s .readOUT (s.reply (.bytes s.out))
  | writePix {p : Nat} {v : Byte} : p < 3 * s.config.maxPix →
      ActionLeaves s (.writePix p v) (s.setPix (Memory.write s.pix p v))
  | readPix {p : Nat} {v : Byte} : p < 3 * s.config.maxPix → Memory.read s.pix p = some v →
      ActionLeaves s (.readPix p) (s.reply (.pixel p v))
  | reset : ActionLeaves s .reset (resetEvent s)

theorem hostWriteReg_next {i v : Nat} {s t : State} (h : hostWriteReg i v s = .next t) :
    ActionLeaves s (.writeReg i v) t := by
  unfold hostWriteReg at h
  split at h <;> (try split at h) <;> try cases h
  · next g => exact .command g h
  · next g => exact .width g
  · next g => exact .height g
  · next g => exact .qcnt g

/-- A host action that answers a next state leaves what its constructor says. -/
theorem performAction_next {a : HostAction} {s t : State} (h : performAction a s = .next t) :
    ActionLeaves s a t := by
  cases a with
  | writeReg i v => exact hostWriteReg_next h
  | readReg i =>
    simp only [performAction, hostReadReg] at h
    split at h
    · next v hv => cases h; exact .register hv
    · cases h
  | readIN => cases h; exact .readIN
  | readQ => cases h; exact .readQ
  | readOUT => cases h; exact .readOUT
  | reset => cases h; exact .reset
  | loadIN bytes =>
    simp only [performAction, hostLoadIN] at h
    split at h
    · next g => cases h; exact .loadIN g
    · cases h
  | loadQ quads =>
    simp only [performAction, hostLoadQ] at h
    split at h
    · next g => cases h; exact .loadQ g
    · cases h
  | writePix p v =>
    simp only [performAction, hostWritePix] at h
    split at h
    · next g => cases h; exact .writePix g
    · cases h
  | readPix p =>
    simp only [performAction, hostReadPix] at h
    split at h
    · next g =>
      split at h
      · next v hv => cases h; exact .readPix g hv
      · cases h
    · cases h

/-- A step that answers a next state: nothing pending, or the oldest action performed. -/
theorem step_next {s t : State} (h : step s = .next t) :
    (s.hostActions = [] ∧ t = s) ∨
    ∃ a rest, s.hostActions = a :: rest ∧ performAction a (s.setActions rest) = .next t := by
  unfold step nextEvent at h
  split at h
  · next he => exact .inl ⟨he, (Host.Outcome.next.inj h).symm⟩
  · next a rest he => exact .inr ⟨a, rest, he, h⟩

/-- An issued word that answers a next state: an illegal word's error entry, or the command it decodes to. -/
theorem issueCommand_next {w : Word} {s t : State} (h : issueCommand w s = .next t) :
    (∃ e, decode w = .error e ∧ t = s.setErr ErrorKind.illegalCommand.code) ∨
    ∃ i, decode w = .ok i ∧ exec i s = .next t := by
  unfold issueCommand at h
  split at h
  · next i hi => exact .inr ⟨i, hi, h⟩
  · next e he => exact .inl ⟨e, he, (Host.Outcome.next.inj h).symm⟩

theorem lengthRegister_toNat {n : Nat} (h : n < 2 ^ 64) : (lengthRegister n).toNat = n := by
  unfold lengthRegister
  rw [if_pos h, BitVec.toNat_ofNat, Nat.mod_eq_of_lt h]

end Sys2Proof.Machine
end

