-- ==== Sys2Proof/Laws/PerInstr.lean ====
section
/-! SUPPORT. Per-constructor facts about the words of commands. -/

namespace Sys2Proof.Laws.EncodedFields

/-- The fields of a well-formed command's word (30_encoding.md R49, R50): its operation, its operands in E and PB, zero
everywhere else. -/
def Statement (i : Instr) : Prop :=
  WellFormed i → ∃ op, opOfCode (fieldOp (encode i)) = some op ∧ fieldRes0 (encode i) = 0#3 ∧
    fieldRes1 (encode i) = 0#16 ∧ (fieldE (encode i) = true → op = .hide) ∧
    (fieldPB (encode i) ≠ 0#8 → op = .ser) ∧
    instrOfOp op (fieldE (encode i)) (fieldPB (encode i)).toNat = i

/-- The five fields of SER's word, for every PB an 8-bit field holds. -/
theorem ser_fields : ∀ pb : Fin 256,
    fieldOp (encode (.ser pb)) = 1#4 ∧ fieldRes0 (encode (.ser pb)) = 0#3 ∧ fieldRes1 (encode (.ser pb)) = 0#16 ∧
      fieldE (encode (.ser pb)) = false ∧ (fieldPB (encode (.ser pb))).toNat = pb := by decide +kernel

theorem ser (pb : Nat) : Statement (.ser pb) := by
  intro h
  have hpb : pb < 256 := by simpa [WellFormed, Instr.wellFormed] using h
  obtain ⟨hop, hres0, hres1, he, hp⟩ := ser_fields ⟨pb, hpb⟩
  refine ⟨.ser, by rw [hop]; rfl, hres0, hres1, fun h => ?_, fun _ => rfl, ?_⟩
  · rw [he] at h; cases h
  · exact congrArg Instr.ser hp

theorem des : Statement .des := fun _ => ⟨.des, rfl, rfl, rfl, by decide, by decide, rfl⟩

theorem pwr : Statement .pwr := fun _ => ⟨.pwr, rfl, rfl, rfl, by decide, by decide, rfl⟩

theorem prd : Statement .prd := fun _ => ⟨.prd, rfl, rfl, rfl, by decide, by decide, rfl⟩

theorem hide (encrypted : Bool) : Statement (.hide encrypted) := by
  intro _
  cases encrypted <;> exact ⟨.hide, rfl, rfl, rfl, fun _ => rfl, by decide, rfl⟩

theorem extr : Statement .extr := fun _ => ⟨.extr, rfl, rfl, rfl, by decide, by decide, rfl⟩

end Sys2Proof.Laws.EncodedFields
end

