-- ==== Sys2Proof/Machine/HostScripts.lean ====
section
/-! DEFINITION. The source's operations as sequences of host actions (10_state.md R33, R34; 70_reset_and_hazards.md R102).
Encryption, image files and the choice of a carrier stay with the host's software (00_scope.md R5). -/

namespace Sys2Proof.Machine

/-- HostWritePix(a, v0), HostWritePix(a+1, v1), … for consecutive bytes. -/
def writePixels : (address : Nat) → List Byte → List HostAction
  | _, [] => []
  | a, v :: rest => .writePix a v :: writePixels (a + 1) rest

/-- The write of CMD that issues a command (10_state.md R18). -/
def issueAction (i : Instr) : HostAction := .writeReg 0 (encode i).toNat

/-- `loadImagePixels`: every channel byte of the grid, in the order of 20_memory.md R40, and WIDTH and HEIGHT
(10_state.md R33). R102 lets the host take any order; pixels first is DESIGN CHOICE (log 18). -/
def loadImagePixels (w h : Nat) (grid : List Byte) : List HostAction :=
  writePixels 0 grid ++ [.writeReg 2 w, .writeReg 3 h]

/-- `savePixels`: the first 3·W·H bytes of PIX (10_state.md R33). -/
def savePixels (w h : Nat) : List HostAction := (List.range (3 * w * h)).map .readPix

/-- LSB `hide` of a payload as stored; encrypted says whether the host encrypted it (10_state.md R34). Up to the
command: saving the carrier is `savePixels` (log 18). -/
def hideScript (payload : List Byte) (encrypted : Bool) (w h : Nat) (grid : List Byte) : List HostAction :=
  .loadIN payload :: loadImagePixels w h grid ++ [issueAction (.hide encrypted)]

/-- The LSB half of `extract`: load, EXTR, and the reads of STATUS and OUT from which the host goes on to decrypt
(10_state.md R34). -/
def extractScript (w h : Nat) (grid : List Byte) : List HostAction :=
  loadImagePixels w h grid ++ [issueAction .extr, .readReg 1, .readOUT]

end Sys2Proof.Machine
end

