-- ==== Sys2Proof/Machine/Assembly.lean ====
section
/-! DEFINITION. The assembly language of the spec (30_encoding.md R56, R57): a line of text, what it says, and the host
actions it stands for. Text is a list of characters. -/

namespace Sys2Proof.Machine

/-- A line of the assembly language. -/
inductive AsmLine where
  /-- An empty line or a comment alone. -/
  | blank
  /-- `ser`, `des`, `pwr`, `prd`, `hide`, `hide.e`, `extr`, `serraw` (`ser 1`) and `serlsb` (`ser 3`). -/
  | command (i : Instr)
  /-- `.cmd w`: any 32-bit word, as given. -/
  | cmd (w : Nat)
  /-- `wr reg, v`, the register by its index. -/
  | wr (index v : Nat)
  /-- `rd reg`. -/
  | rd (index : Nat)
  /-- `ldin b0, b1, …` or `ldin "text"`. -/
  | ldin (bytes : List Byte)
  /-- `ldq q0, q1, …`. -/
  | ldq (quads : List Quad)
  /-- `wpix a, v0, v1, …`. -/
  | wpix (address : Nat) (values : List Byte)
  /-- `fillpix a, n, v`. -/
  | fillpix (address count : Nat) (value : Byte)
  /-- `rdout`. -/
  | rdout
  /-- `rdq`. -/
  | rdq
  /-- `rdpix a, n`. -/
  | rdpix (address count : Nat)
  deriving DecidableEq, Repr

/-- The host actions a line stands for (30_encoding.md R56, R57). -/
def AsmLine.expand : AsmLine → List HostAction
  | .blank => []
  | .command i => [issueAction i]
  | .cmd w => [.writeReg 0 w]
  | .wr index v => [.writeReg index v]
  | .rd index => [.readReg index]
  | .ldin bytes => [.loadIN bytes]
  | .ldq quads => [.loadQ quads]
  | .wpix a values => writePixels a values
  | .fillpix a n v => writePixels a (List.replicate n v)
  | .rdout => [.readOUT]
  | .rdq => [.readQ]
  | .rdpix a n => (List.range n).map fun i => .readPix (a + i)

/-- An ASCII letter in lower case: mnemonics are case-insensitive (30_encoding.md R56). -/
def asmLower (c : Char) : Char := if 65 ≤ c.toNat ∧ c.toNat ≤ 90 then Char.ofNat (c.toNat + 32) else c

/-- A space or a tab, the white space of a line: DESIGN CHOICE (log 13). -/
def asmIsSpace (c : Char) : Bool := c.toNat == 32 || c.toNat == 9

/-- The text without the white space around it. -/
def asmTrim (cs : List Char) : List Char := ((cs.dropWhile asmIsSpace).reverse.dropWhile asmIsSpace).reverse

/-- The text before a comment (30_encoding.md R56). A semicolon inside a quoted text starts none: DESIGN CHOICE
(log 13). -/
def asmStripComment (inText : Bool) : List Char → List Char
  | [] => []
  | c :: cs =>
    if c.toNat = 59 ∧ inText = false then []
    else c :: asmStripComment (if c.toNat = 34 then !inText else inText) cs

/-- The parts between commas. -/
def asmSplit : List Char → List (List Char)
  | [] => [[]]
  | c :: cs =>
    if c.toNat = 44 then [] :: asmSplit cs
    else
      match asmSplit cs with
      | [] => [[c]]
      | part :: parts => (c :: part) :: parts

/-- The value of a digit, decimal or hexadecimal. -/
def asmDigit (c : Char) : Option Nat :=
  if 48 ≤ c.toNat ∧ c.toNat ≤ 57 then some (c.toNat - 48)
  else if 97 ≤ c.toNat ∧ c.toNat ≤ 102 then some (c.toNat - 87)
  else if 65 ≤ c.toNat ∧ c.toNat ≤ 70 then some (c.toNat - 55)
  else none

/-- The value of a string of digits, after acc. -/
def asmDigits (base acc : Nat) : List Char → Option Nat
  | [] => some acc
  | c :: cs =>
    match asmDigit c with
    | none => none
    | some d => if d < base then asmDigits base (acc * base + d) cs else none

/-- A decimal number, or a hexadecimal one after 0x or 0X, in digits of either case: DESIGN CHOICE (log 13). -/
def asmNumber : List Char → Option Nat
  | [] => none
  | '0' :: 'x' :: c :: cs => asmDigits 16 0 (c :: cs)
  | '0' :: 'X' :: c :: cs => asmDigits 16 0 (c :: cs)
  | c :: cs => asmDigits 10 0 (c :: cs)

/-- A number below bound. -/
def asmNumberBelow (bound : Nat) (cs : List Char) : Option Nat :=
  match asmNumber cs with
  | some n => if n < bound then some n else none
  | none => none

/-- A number of eight bits. -/
def asmByte (cs : List Char) : Option Byte := (asmNumberBelow 256 cs).map (BitVec.ofNat 8)

/-- A number from 0 to 3. -/
def asmQuad (cs : List Char) : Option Quad := (asmNumberBelow 4 cs).map (BitVec.ofNat 2)

/-- The ASCII byte of a character of a quoted text (30_encoding.md R57); another character has none: DESIGN CHOICE
(log 13). -/
def asmAscii (c : Char) : Option Byte := if c.toNat < 128 then some (BitVec.ofNat 8 c.toNat) else none

/-- The result for every element, or none where one has none. -/
def asmAll {α β : Type} (f : α → Option β) : List α → Option (List β)
  | [] => some []
  | x :: xs =>
    match f x, asmAll f xs with
    | some y, some ys => some (y :: ys)
    | _, _ => none

/-- The bytes of a quoted text (30_encoding.md R57): every character between the first quote and the last. That a quote
character in between is a character of the text is DESIGN CHOICE (log 13): `"a", "b"` is the one text `a", "b`. -/
def asmText : List Char → Option (List Byte)
  | [] => none
  | c :: cs =>
    match cs.reverse with
    | [] => none
    | d :: body => if c.toNat = 34 ∧ d.toNat = 34 then asmAll asmAscii body.reverse else none

/-- The register names of 10_state.md R17 by index, in upper case: DESIGN CHOICE (log 13). -/
def asmRegister (cs : List Char) : Option Nat :=
  if cs = "CMD".toList then some 0
  else if cs = "STATUS".toList then some 1
  else if cs = "WIDTH".toList then some 2
  else if cs = "HEIGHT".toList then some 3
  else if cs = "QCNT".toList then some 4
  else if cs = "MAGIC".toList then some 5
  else if cs = "LEN".toList then some 6
  else if cs = "CAP".toList then some 7
  else if cs = "INLEN".toList then some 8
  else if cs = "QLEN".toList then some 9
  else if cs = "OUTLEN".toList then some 10
  else none

/-- A line from its mnemonic, in lower case, and its operands, rest being their text whole (30_encoding.md R56, R57).
DESIGN CHOICE (log 13): `ldq` with no operand loads the empty sequence, as R57 says of `ldin`; `wpix` has at least one
value; a line that is none of these has no meaning. -/
def asmStatement (mnemonic rest : List Char) (operands : List (List Char)) : Option AsmLine :=
  match operands with
  | [] =>
    if mnemonic = [] then some .blank
    else if mnemonic = "des".toList then some (.command .des)
    else if mnemonic = "pwr".toList then some (.command .pwr)
    else if mnemonic = "prd".toList then some (.command .prd)
    else if mnemonic = "hide".toList then some (.command (.hide false))
    else if mnemonic = "hide.e".toList then some (.command (.hide true))
    else if mnemonic = "extr".toList then some (.command .extr)
    else if mnemonic = "serraw".toList then some (.command (.ser 1))
    else if mnemonic = "serlsb".toList then some (.command (.ser 3))
    else if mnemonic = "ldin".toList then some (.ldin [])
    else if mnemonic = "ldq".toList then some (.ldq [])
    else if mnemonic = "rdout".toList then some .rdout
    else if mnemonic = "rdq".toList then some .rdq
    else none
  | first :: more =>
    if mnemonic = "ser".toList ∧ more = [] then
      match asmNumberBelow 256 first with
      | some pb => if pb = 0 then none else some (.command (.ser pb))
      | none => none
    else if mnemonic = ".cmd".toList ∧ more = [] then (asmNumberBelow (2 ^ 32) first).map .cmd
    else if mnemonic = "rd".toList ∧ more = [] then (asmRegister first).map .rd
    else if mnemonic = "wr".toList then
      match asmRegister first, more with
      | some i, [v] => if 2 ≤ i ∧ i ≤ 4 then (asmNumber v).map (.wr i) else none
      | _, _ => none
    else if mnemonic = "ldin".toList then
      match asmText rest with
      | some bytes => some (.ldin bytes)
      | none => (asmAll asmByte operands).map .ldin
    else if mnemonic = "ldq".toList then (asmAll asmQuad operands).map .ldq
    else if mnemonic = "wpix".toList then
      match asmNumber first, more with
      | some a, _ :: _ => (asmAll asmByte more).map (.wpix a)
      | _, _ => none
    else if mnemonic = "fillpix".toList then
      match asmNumber first, more with
      | some a, [n, v] =>
        match asmNumber n, asmByte v with
        | some n, some v => some (.fillpix a n v)
        | _, _ => none
      | _, _ => none
    else if mnemonic = "rdpix".toList then
      match asmNumber first, more with
      | some a, [n] => (asmNumber n).map (.rdpix a)
      | _, _ => none
    else none

/-- A line of text: its comment dropped, its mnemonic in lower case, its operands between commas. -/
def asmLine (text : List Char) : Option AsmLine :=
  asmStatement (((asmTrim (asmStripComment false text)).takeWhile fun c => !asmIsSpace c).map asmLower)
    (asmTrim ((asmTrim (asmStripComment false text)).dropWhile fun c => !asmIsSpace c))
    (match asmTrim ((asmTrim (asmStripComment false text)).dropWhile fun c => !asmIsSpace c) with
      | [] => []
      | c :: cs => (asmSplit (c :: cs)).map asmTrim)

/-- The host actions of a program, one line of text after another; a blank line stands for none, and one line without a
meaning leaves the program without one: DESIGN CHOICE (log 13). -/
def assemble (lines : List (List Char)) : Option (List HostAction) :=
  (asmAll asmLine lines).map fun parsed => parsed.flatMap AsmLine.expand

end Sys2Proof.Machine
end

