-- ==== Sys2Proof/Tests/Slice0.lean ====
section
/-! SUPPORT. Tests with expected results from 95_test_vectors.md (V1 to V67) and the rules' own examples, and for every
statement with hypotheses a state and operands that meet them. -/

namespace Sys2Proof.Tests

open Sys2Proof Sys2Proof.Machine

/-- The next state of an outcome. -/
def nextOf : Out → Option State
  | .next s => some s
  | .fault _ => none
  | .refused _ => none

/-- The fault of an outcome. -/
def faultOf : Out → Option Fault
  | .next _ => none
  | .fault f => some f
  | .refused _ => none

/-- A machine with a w by h grid and these bytes from PIX address 0 on. -/
def carrier (w h : Nat) (bytes : List Byte) : State :=
  { State.reset with
    width := BitVec.ofNat 32 w, height := BitVec.ofNat 32 h, pix := (List.range bytes.length).zip bytes }

/-- A small instance: MAXB, MAXQ, MAXPIX and STRICT_GROUPS. -/
def instanceOf (maxB maxQ maxPix : Nat) (strict : Bool) (s : State) : State :=
  { s with config := { maxB := maxB, maxQ := maxQ, maxPix := maxPix, strictGroups := strict } }

/-- The channel bytes of a header with the unencrypted magic, the length given by its last five quads (V42's magic
quads for 0xDEADC0DE as in V44). -/
def plainHeader (l0 l1 l2 l3 l4 : Byte) : List Byte :=
  [3#8, 1#8, 3#8, 2#8, 2#8, 2#8, 3#8, 1#8, 3#8, 0#8, 0#8, 0#8, 3#8, 1#8, 3#8, 2#8] ++
    List.replicate 27 0#8 ++ [l0, l1, l2, l3, l4]

/-- A carrier of 20 pixels with a header of length 3 and a zero payload (V54). -/
def header3 : State := carrier 4 5 (plainHeader 0#8 0#8 0#8 0#8 3#8 ++ List.replicate 12 0#8)

/-- The carrier of V41: 20 white pixels, IN = "hi". -/
def white20 : State := { carrier 4 5 (List.replicate 60 0xFF#8) with inBuf := [0x68#8, 0x69#8] }

/-! ### Well-formedness and decoding -/

theorem test_wf_refuses_pb_256 : Instr.wellFormed (.ser 256) = false := by decide

theorem test_wf_accepts_pb_255 : Instr.wellFormed (.ser 255) = true := by decide

/-- V65: bits 15:8 = 3, OP = 1. -/
theorem test_decode_ser : decode 0b00000000000000000000001100000001#32 = .ok (.ser 3) := by decide

theorem test_decode_des : decode 0b00000000000000000000000000000010#32 = .ok .des := by decide

theorem test_decode_pwr : decode 0b00000000000000000000000000000011#32 = .ok .pwr := by decide

theorem test_decode_prd : decode 0b00000000000000000000000000000100#32 = .ok .prd := by decide

/-- V66: bit 4 set. -/
theorem test_decode_hide : decode 0b00000000000000000000000000010101#32 = .ok (.hide true) := by decide

theorem test_decode_extr : decode 0b00000000000000000000000000000110#32 = .ok .extr := by decide

/-- V61 to V64. -/
theorem test_decode_illegal : decode 0x00000011#32 = .error .encOutsideHide ∧ decode 0x00000102#32 = .error .pbOutsideSer ∧
    decode 0x00010001#32 = .error .reservedBits ∧ decode 0x00000025#32 = .error .reservedBits := by decide

theorem test_decodeTableWord : decodeTableWord 32 0xFF01 = some (.ser 255) ∧ decodeTableWord 32 0x7 = none := by decide

/-! ### Codec, frame and carrier functions -/

/-- V3 and V6. -/
theorem test_quads : byteToQuads 0x1B#8 = [0#2, 1#2, 2#2, 3#2] ∧ quadsToByte 1#2 2#2 2#2 0#2 = 0x68#8 := by decide

/-- V26 and V27. -/
theorem test_frame : buildFrameLSB 0x1337C0DE#32 [] = [0x13#8, 0x37#8, 0xC0#8, 0xDE#8, 0#8, 0#8, 0#8, 0#8, 0#8, 0#8, 0#8, 0#8] ∧
    parseHeaderLSB [0xDE#8, 0xAD#8, 0xC0#8, 0xDE#8, 0#8, 0#8, 0#8, 0#8, 0#8, 0#8, 3#8, 0xE8#8] =
      (0xDEADC0DE#32, 1000#64) := by decide

/-- V29 and V30. -/
theorem test_channels : chanWrite 0xFF#8 0#2 = 0xFC#8 ∧ chanWrite 0x7D#8 1#2 = 0x7D#8 ∧ chanRead 0xA7#8 = 3#2 := by decide

/-- 20_memory.md R40: the last channel of pixel (3, 4) of a 4×5 grid. -/
theorem test_pixAddr : pixAddr 4 3 4 2 = 59 := by decide

/-! ### Commands -/

/-- V12: a padBlock that is neither 1 nor 3. -/
theorem test_ser : (nextOf (exec (.ser 7) { State.reset with inBuf := [0xAB#8] })).map State.q =
    some [2#2, 2#2, 2#2, 3#2, 0#2, 0#2, 0#2] := by decide

/-- V17: 20 quads do not fit 16. -/
theorem test_ser_overflow : (nextOf (exec (.ser 1)
    (instanceOf 4096 16 16 false { State.reset with inBuf := List.replicate 5 0#8, q := [2#2] }))).map
      (fun t => (t.q, t.status)) = some ([2#2], 0x00000006#32) := by decide

/-- V22: padding decoded. -/
theorem test_des : (nextOf (exec .des
    { State.reset with q := [0#2, 0#2, 0#2, 1#2, 0#2, 0#2, 0#2, 0#2, 0#2] })).map State.out = some [0x01#8, 0x00#8] := by
  decide

/-- V20: STRICT_GROUPS. -/
theorem test_des_strict : (nextOf (exec .des
    (instanceOf 4096 16384 4096 true { State.reset with q := [1#2, 2#2, 3#2], out := [0x55#8] }))).map
      (fun t => (t.out, t.status)) = some ([0x55#8], 0x00000003#32) := by decide

/-- V31. -/
theorem test_pwr : (nextOf (exec .pwr { carrier 1 1 [0xFF#8, 0x00#8, 0x80#8] with q := [0#2, 3#2, 2#2] })).map
    State.pix = some [(0, 0xFC#8), (1, 0x03#8), (2, 0x82#8)] := by decide

/-- V33: more quads than channels. -/
theorem test_pwr_capacity : (nextOf (exec .pwr
    { carrier 1 1 [0xFF#8, 0x00#8, 0x80#8] with q := [1#2, 2#2, 3#2, 0#2, 0#2, 0#2] })).map
      (fun t => (t.pix, t.err)) = some ([(0, 0xFF#8), (1, 0x00#8), (2, 0x80#8)], 1#4) := by decide

/-- V35. -/
theorem test_prd : (nextOf (exec .prd { carrier 1 1 [0xFC#8, 0x03#8, 0x82#8] with qcnt := 3#64 })).map State.q =
    some [0#2, 3#2, 2#2] := by decide

/-- V40: byte 2 was never written. -/
theorem test_prd_unwritten : faultOf (exec .prd { carrier 1 1 [0xFC#8, 0x03#8] with qcnt := 3#64 }) =
    some .unwrittenPixel := by decide

/-- V41, the whole carrier. -/
theorem test_hide : (nextOf (exec (.hide false) white20)).map (fun t => (t.pix.map Prod.snd, t.magic, t.len, t.status)) =
    some ([0xFF#8, 0xFD#8, 0xFF#8, 0xFE#8, 0xFE#8, 0xFE#8, 0xFF#8, 0xFD#8, 0xFF#8, 0xFC#8, 0xFC#8, 0xFC#8] ++
      [0xFF#8, 0xFD#8, 0xFF#8, 0xFE#8, 0xFC#8, 0xFC#8, 0xFC#8, 0xFC#8, 0xFC#8, 0xFC#8, 0xFC#8, 0xFC#8] ++
      List.replicate 23 0xFC#8 ++ [0xFE#8] ++
      [0xFD#8, 0xFE#8, 0xFE#8, 0xFC#8, 0xFD#8, 0xFE#8, 0xFE#8, 0xFD#8, 0xFC#8, 0xFF#8, 0xFF#8, 0xFF#8],
      0xDEADC0DE#32, 2#64, 0#32) := by decide +kernel

/-- V43: one byte too many for a 4×4 carrier. -/
theorem test_hide_capacity : (nextOf (exec (.hide false)
    { carrier 4 4 (List.replicate 48 0#8) with inBuf := [0x61#8] })).map (fun t => (t.err, t.magic)) =
    some (1#4, 0#32) := by decide

/-- V54: the payload fits the grid exactly. -/
theorem test_extr : (nextOf (exec .extr header3)).map (fun t => (t.out, t.magic, t.len, t.status)) =
    some ([0#8, 0#8, 0#8], 0xDEADC0DE#32, 3#64, 0#32) := by decide +kernel

/-- V53: a length of 2^64 − 1 is TruncatedFrame, never a wrapped sum. -/
theorem test_extr_truncated : (nextOf (exec .extr (carrier 4 5
    ([3#8, 1#8, 3#8, 2#8, 2#8, 2#8, 3#8, 1#8, 3#8, 0#8, 0#8, 0#8, 3#8, 1#8, 3#8, 2#8] ++ List.replicate 44 3#8)))).map
      State.status = some 3#32 := by decide +kernel

/-! ### The host's side and the step -/

/-- V67: an illegal word changes ERR alone. -/
theorem test_step_illegal : (nextOf (step (({ header3 with out := [7#8], status := 0x10#32 } : State).withFetchWord 32 0))).map
    (fun t => (t.status, t.out, t.hostActions)) = some (0x14#32, [7#8], []) := by decide

/-- A command runs as the first step after reset: EXTR on a grid of no pixels is NoHiddenData (D14). -/
theorem test_step_from_reset : (nextOf (step (State.reset.withFetchWord 32 6))).map State.status = some 2#32 := by decide

/-- CAP of V41's grid is 15. -/
theorem test_host_reads_cap : (nextOf (performAction (.readReg 7) white20)).map State.hostReplies =
    some [.register 7 15] := by decide

/-- A write of STATUS is refused (10_state.md R35). -/
theorem test_host_refused : nextOf (performAction (.writeReg 1 0) State.reset) = none := by decide

/-- A load one byte over MAXB is refused, one at MAXB is not (10_state.md R33). -/
theorem test_host_load_bound :
    nextOf (performAction (.loadIN [1#8, 2#8]) (instanceOf 1 48 16 false State.reset)) = none ∧
    (nextOf (performAction (.loadIN [1#8]) (instanceOf 1 48 16 false State.reset))).map State.inBuf = some [1#8] := by
  decide

/-- Lines of P1 and P4 (30_encoding.md R56, R57). -/
theorem test_assembly : assemble ["        wr     WIDTH, 4".toList, "hide.e  ; CMD <- 0x00000015".toList,
    "ldin   \"hi\"".toList, "SERLSB".toList, "fillpix 1, 2, 0xFF".toList] =
    some [.writeReg 2 4, .writeReg 0 0x15, .loadIN [0x68#8, 0x69#8], .writeReg 0 0x301, .writePix 1 0xFF#8,
      .writePix 2 0xFF#8] := by decide +kernel

/-- 30_encoding.md R56: `ser` takes 1 to 255; a text that holds a semicolon keeps it. -/
theorem test_assembly_edges : asmLine "ser 0".toList = none ∧
    asmLine "ldin \"a;b\"".toList = some (.ldin [0x61#8, 0x3B#8, 0x62#8]) := by decide +kernel

/-- The two points of R57 that log 13 settles: the model's choices, not the spec's. -/
theorem test_assembly_choices : asmLine "ldq".toList = some (.ldq []) ∧
    asmLine "ldin \"a\", \"b\"".toList = some (.ldin [0x61#8, 0x22#8, 0x2C#8, 0x20#8, 0x22#8, 0x62#8]) := by
  decide +kernel

/-- 10_state.md R34: the actions of a hide into one pixel. -/
theorem test_hideScript : hideScript [0x61#8] true 1 1 [1#8, 2#8, 3#8] =
    [.loadIN [0x61#8], .writePix 0 1#8, .writePix 1 2#8, .writePix 2 3#8, .writeReg 2 1, .writeReg 3 1,
      .writeReg 0 0x15] := by decide

/-! ### Witnesses: for each statement with hypotheses, operands and states that meet them -/

/-- DecoderFollowsCheckOrder, IllegalWordsRaiseIllegalCommand: a word for each clause, at the edges of its ranges. -/
theorem witness_DecoderFollowsCheckOrder :
    ¬(1 ≤ (0xFFFFFFF7#32).toNat % 16 ∧ (0xFFFFFFF7#32).toNat % 16 ≤ 6) ∧
    (1 ≤ (0x00010001#32).toNat % 16 ∧ (0x00010001#32).toNat / 2 ^ 16 ≠ 0) ∧
    (1 ≤ (0x00000026#32).toNat % 16 ∧ (0x00000026#32).toNat % 16 ≤ 6 ∧ (0x00000026#32).toNat / 2 ^ 5 % 8 ≠ 0) ∧
    ((0x00000014#32).toNat / 2 ^ 4 % 2 ≠ 0 ∧ (0x00000014#32).toNat % 16 ≠ 5) ∧
    ((0x00000115#32).toNat / 2 ^ 8 % 256 ≠ 0 ∧ (0x00000115#32).toNat % 16 = 5) ∧
    ((0x0000FF01#32).toNat % 16 = 1 ∧ (0x0000FF01#32).toNat / 2 ^ 16 = 0) ∧
    (∃ e, decode 0x00000000#32 = .error e) ∧ (∃ i, decode 0x00000006#32 = .ok i) :=
  ⟨by decide, by decide, by decide, by decide, by decide, by decide, ⟨.reservedOp, by decide⟩, ⟨.extr, by decide⟩⟩

theorem witness_IllegalWordsRaiseIllegalCommand :
    ((0x00000007#32).toNat % 16 = 0 ∨ 7 ≤ (0x00000007#32).toNat % 16) ∧
    ¬(((0x0000FF01#32).toNat % 16 = 0 ∨ 7 ≤ (0x0000FF01#32).toNat % 16) ∨
      ((0x0000FF01#32).toNat / 2 ^ 5 % 8 ≠ 0 ∨ (0x0000FF01#32).toNat / 2 ^ 16 ≠ 0) ∨
      ((0x0000FF01#32).toNat / 2 ^ 4 % 2 ≠ 0 ∧ (0x0000FF01#32).toNat % 16 ≠ 5) ∨
      ((0x0000FF01#32).toNat / 2 ^ 8 % 256 ≠ 0 ∧ (0x0000FF01#32).toNat % 16 ≠ 1)) ∧
    ∃ t, exec .des State.reset = .next t := ⟨by decide, by decide, _, rfl⟩

theorem witness_DecodeEncodeAgree : WellFormed (.ser 0) ∧ WellFormed (.ser 255) ∧ WellFormed (.hide true) := by decide

theorem witness_EncodeDecodeAgree : ∃ (w : Word) (i : Instr), decode w = .ok i := ⟨0x0000FF01#32, .ser 255, by decide⟩

theorem witness_StepRunsDecodedCommand :
    (∃ (s : State) (w : Word) (rest : List HostAction) (i : Instr), s.hostActions = .writeReg 0 w.toNat :: rest ∧
      decode w = .ok i) ∧
    (∃ (s : State) (w : Word) (rest : List HostAction) (e : DecodeError),
      s.hostActions = .writeReg 0 w.toNat :: rest ∧ decode w = .error e) :=
  ⟨⟨{ State.reset with hostActions := [.writeReg 0 6, .readOUT] }, 6#32, [.readOUT], .extr, by decide, by decide⟩,
    ⟨{ State.reset with hostActions := [.writeReg 0 0xFFFFFFFF] }, 0xFFFFFFFF#32, [], .reservedOp, by decide, by decide⟩⟩

theorem witness_StepPerformsOldestAction :
    (∃ (s : State) (a : HostAction) (rest : List HostAction), s.hostActions = a :: rest) ∧
    ∃ s : State, s.hostActions = [] := ⟨⟨{ State.reset with hostActions := [.reset] }, .reset, [], rfl⟩, State.reset, rfl⟩

theorem witness_SerializeQuadByQuad : ∃ (bs : List Byte) (p : Nat), 1 ≤ p ∧ (∃ i b, bs[i / 4]? = some b) ∧
    ∃ i, 4 * bs.length ≤ i ∧ i < (serialize bs p).length :=
  ⟨[0xAB#8], 7, by decide, ⟨3, 0xAB#8, by decide⟩, 6, by decide, by decide⟩

theorem witness_SerializedLength : (1 ≤ 1 ∧ 1 ∣ 4 ∧ 4 * [0xAB#8].length ≤ 4) ∧ 1 ≤ 3 ∧ 1 ≤ 255 := by decide

theorem witness_DeserializeGroups : (∃ (qs : List Quad) (i : Nat) (q0 q1 q2 q3 : Quad), qs[4 * i]? = some q0 ∧
      qs[4 * i + 1]? = some q1 ∧ qs[4 * i + 2]? = some q2 ∧ qs[4 * i + 3]? = some q3) ∧
    ∃ qs tail : List Quad, qs.length % 4 = 0 ∧ tail.length < 4 :=
  ⟨⟨[3#2, 1#2, 3#2, 2#2], 0, 3#2, 1#2, 3#2, 2#2, by decide⟩, [3#2, 1#2, 3#2, 2#2], [1#2, 2#2, 3#2], by decide⟩

theorem witness_CodecLaws : 1 ≤ 9 ∧ 1 ≤ 4 ∧ 4 ≤ 4 := by decide

theorem witness_FrameLayout : [0x68#8, 0x69#8].length < 2 ^ 64 ∧ 3 < 4 ∧ 7 < 8 := by decide

theorem witness_FrameFacts : 1 ≤ 3 ∧ 47 < 48 ∧ [0x68#8].length < 2 ^ 64 ∧
    4 * [0x68#8].length ≤ 5 ∧ 5 < (serialize [0x68#8] 3).length := by decide

theorem witness_RasterAddressIsQuadIndex : 59 < 3 * 4 * 5 := by decide

theorem witness_CapacityTest :
    (∃ s : State, s.gridPixels ≤ s.config.maxPix ∧
      12 + s.inBuf.length > s.width.toNat * s.height.toNat * 6 / 8) ∧
    ∃ s t : State, 12 + s.inBuf.length ≤ s.width.toNat * s.height.toNat * 6 / 8 ∧ exec (.hide false) s = .next t :=
  ⟨⟨State.reset, by decide⟩, white20, _, by decide, rfl⟩

theorem witness_SerResult : ∃ (pb : Nat) (s : State), pb ≠ 0 ∧
    (4 * s.inBuf.length + pb - 1) / pb * pb ≤ s.config.maxQ ∧ ∃ i b, s.inBuf[i / 4]? = some b :=
  ⟨255, { State.reset with inBuf := [0x41#8] }, by decide, by decide, 3, 0x41#8, by decide⟩

theorem witness_SerErrors : (0 = 0) ∧ ∃ (pb : Nat) (s : State), pb ≠ 0 ∧
    (4 * s.inBuf.length + pb - 1) / pb * pb > s.config.maxQ :=
  ⟨rfl, 1, instanceOf 4096 48 16 false { State.reset with inBuf := List.replicate 13 0#8 }, by decide, by decide⟩

theorem witness_DesResult : ∃ s : State, (s.config.strictGroups = false ∨ s.q.length % 4 = 0) ∧
    s.q.length / 4 ≤ s.config.maxB ∧ s.q.length % 4 = 1 ∧ s.q[0]? = some 3#2 :=
  ⟨{ State.reset with q := [3#2, 1#2, 3#2, 2#2, 1#2] }, by decide⟩

theorem witness_DesErrors : (∃ s : State, s.config.strictGroups = true ∧ s.q.length % 4 ≠ 0) ∧
    ∃ s : State, (s.config.strictGroups = false ∨ s.q.length % 4 = 0) ∧ s.q.length / 4 > s.config.maxB :=
  ⟨⟨instanceOf 1 48 16 true { State.reset with q := [1#2] }, by decide⟩,
    instanceOf 1 48 16 true { State.reset with q := List.replicate 8 0#2 }, by decide⟩

theorem witness_PwrResult : ∃ s : State, s.gridPixels ≤ s.config.maxPix ∧ s.q.length % 3 = 0 ∧
    s.q.length ≤ s.gridChannels ∧ s.pixHeld s.q.length ∧ s.q[2]? = some 2#2 ∧ Memory.read s.pix 2 = some 0x80#8 :=
  ⟨{ carrier 1 1 [0xFF#8, 0x00#8, 0x80#8] with q := [0#2, 3#2, 2#2] }, by decide⟩

theorem witness_PwrErrors : (∃ s : State, s.gridPixels > s.config.maxPix) ∧
    (∃ s : State, s.gridPixels ≤ s.config.maxPix ∧ s.q.length % 3 ≠ 0) ∧
    ∃ s : State, s.gridPixels ≤ s.config.maxPix ∧ s.q.length % 3 = 0 ∧ s.q.length > s.gridChannels :=
  ⟨⟨carrier 100 100 [], by decide⟩, ⟨{ carrier 1 1 [] with q := [1#2, 2#2] }, by decide⟩,
    { State.reset with q := [1#2, 2#2, 3#2] }, by decide⟩

theorem witness_PrdResult : ∃ s : State, s.gridPixels ≤ s.config.maxPix ∧ s.qcnt.toNat ≤ s.gridChannels ∧
    s.qcnt.toNat ≤ s.config.maxQ ∧ s.pixHeld s.qcnt.toNat ∧ 2 < s.qcnt.toNat ∧ Memory.read s.pix 2 = some 0x82#8 :=
  ⟨{ carrier 1 1 [0xFC#8, 0x03#8, 0x82#8] with qcnt := 3#64 }, by decide⟩

theorem witness_PrdErrors : (∃ s : State, s.gridPixels > s.config.maxPix) ∧
    (∃ s : State, s.gridPixels ≤ s.config.maxPix ∧ s.qcnt.toNat > s.gridChannels) ∧
    ∃ s : State, s.gridPixels ≤ s.config.maxPix ∧ s.qcnt.toNat ≤ s.gridChannels ∧ s.qcnt.toNat > s.config.maxQ :=
  ⟨⟨carrier 4097 1 [], by decide⟩, ⟨{ carrier 1 1 [] with qcnt := 4#64 }, by decide⟩,
    instanceOf 1 48 20 false { carrier 4 5 [] with qcnt := 49#64 }, by decide⟩

theorem witness_HideResult : ∃ s : State, s.gridPixels ≤ s.config.maxPix ∧
    12 + s.inBuf.length ≤ s.width.toNat * s.height.toNat * 6 / 8 ∧ s.pixHeld (hiddenQuads s.inBuf.length) :=
  ⟨white20, by decide +kernel⟩

theorem witness_HideErrors : (∃ s : State, s.gridPixels > s.config.maxPix) ∧
    ∃ s : State, s.gridPixels ≤ s.config.maxPix ∧
      12 + s.inBuf.length > s.width.toNat * s.height.toNat * 6 / 8 :=
  ⟨⟨carrier 100 100 [], by decide⟩, { carrier 17 1 [] with inBuf := [0x61#8] }, by decide⟩

theorem witness_ExtrResult : ∃ (s : State) (magic : Word) (len : DWord), s.gridPixels ≤ s.config.maxPix ∧
    48 ≤ s.gridChannels ∧ s.headerIs magic len ∧ (magic = 0xDEADC0DE#32 ∨ magic = 0x1337C0DE#32) ∧
    48 + 4 * len.toNat ≤ s.gridChannels ∧ len.toNat ≤ s.config.maxB ∧ s.pixHeld (48 + 4 * len.toNat) ∧ 2 < len.toNat :=
  ⟨header3, 0xDEADC0DE#32, 3#64, by decide +kernel⟩

/-- V50, V55, V56 and V57, and a grid larger than the pixel memory. -/
theorem witness_ExtrErrors : (∃ s : State, s.gridPixels > s.config.maxPix) ∧
    (∃ s : State, s.gridPixels ≤ s.config.maxPix ∧ s.gridChannels < 48) ∧
    (∃ s : State, s.gridPixels ≤ s.config.maxPix ∧ 48 ≤ s.gridChannels ∧
      s.headerIs 0xFFFFFFFF#32 0xFFFFFFFFFFFFFFFF#64) ∧
    (∃ s : State, s.gridPixels ≤ s.config.maxPix ∧ 48 ≤ s.gridChannels ∧ s.headerIs 0xDEADC0DE#32 4#64 ∧
      48 + 4 * (4#64).toNat > s.gridChannels) ∧
    ∃ s : State, s.gridPixels ≤ s.config.maxPix ∧ 48 ≤ s.gridChannels ∧ s.headerIs 0xDEADC0DE#32 3#64 ∧
      48 + 4 * (3#64).toNat ≤ s.gridChannels ∧ (3#64).toNat > s.config.maxB :=
  ⟨⟨carrier 100 100 [], by decide⟩, ⟨carrier 5 3 [], by decide⟩, ⟨white20, by decide +kernel⟩,
    ⟨carrier 4 5 (plainHeader 0#8 0#8 0#8 1#8 0#8), by decide +kernel⟩,
    instanceOf 2 48 20 false header3, by decide +kernel⟩

theorem witness_ErrorCodesByCommand : ∃ s t : State, exec .extr s = .next t := ⟨header3, _, rfl⟩

theorem witness_ErrorEntryIsPrecise : (∃ s t : State, exec .extr s = .next t ∧ t.err ≠ 0#4) ∧
    ∃ s t : State, issueCommand 0x102#32 s = .next t ∧ t.err ≠ 0#4 :=
  ⟨⟨State.reset, _, rfl, by decide⟩, State.reset, _, rfl, by decide⟩

theorem witness_NoCommandReadsFlags : (∃ s t : State, exec (.hide true) s = .next t) ∧
    ∃ (s : State) (f : Fault), exec .prd s = .fault f :=
  ⟨⟨white20, _, rfl⟩, { carrier 1 1 [] with qcnt := 1#64 }, .unwrittenPixel, rfl⟩

theorem witness_EveryCommandCompletes : (∃ s : State, 0 < s.gridChannels ∧ s.pixHeld s.gridChannels) ∧
    ∃ (s : State) (f : Fault), exec .prd s = .fault f :=
  ⟨⟨white20, by decide +kernel⟩, { carrier 1 1 [] with qcnt := 1#64 }, .unwrittenPixel, rfl⟩

theorem witness_FrameOfQuadWriters : (∃ s t : State, exec (.ser 3) s = .next t ∧ t.err = 0#4) ∧
    ∃ s t : State, exec .prd s = .next t ∧ t.err = 0#4 :=
  ⟨⟨white20, _, rfl, by decide⟩, { header3 with qcnt := 3#64 }, _, rfl, by decide⟩

theorem witness_FrameOfByteWriters : (∃ s t : State, exec .des s = .next t ∧ t.err = 0#4) ∧
    ∃ s t : State, exec .extr s = .next t ∧ t.err = 0#4 :=
  ⟨⟨white20, _, rfl, by decide⟩, header3, _, rfl, by decide +kernel⟩

theorem witness_FrameOfPixelWriters : (∃ s t : State, exec .pwr s = .next t ∧ t.err = 0#4) ∧
    ∃ s t : State, exec (.hide true) s = .next t ∧ t.err = 0#4 :=
  ⟨⟨{ carrier 1 1 [0xFF#8, 0x00#8, 0x80#8] with q := [0#2, 3#2, 2#2] }, _, rfl, by decide⟩, white20, _, rfl,
    by decide +kernel⟩

/-- EmbedderFootprint: success of each command, a failing EXTR, and another memory that agrees on the bytes read. -/
theorem witness_EmbedderFootprint : (∃ s t : State, exec (.hide false) s = .next t ∧ t.err = 0#4) ∧
    (∃ s t : State, exec .pwr s = .next t ∧ t.err = 0#4) ∧
    (∃ (s t : State) (m : Memory), exec .extr s = .next t ∧ t.err = 0#4 ∧ m ≠ s.pix ∧
      ∀ k, k < 48 + 4 * t.len.toNat → Memory.read m k = Memory.read s.pix k) ∧
    (∃ (s t : State) (m : Memory), exec .extr s = .next t ∧ t.err ≠ 0#4 ∧ m ≠ s.pix ∧
      ∀ k, k < 48 → Memory.read m k = Memory.read s.pix k) ∧
    ∃ (s t : State) (m : Memory), exec .prd s = .next t ∧ t.err = 0#4 ∧ m ≠ s.pix ∧
      ∀ k, k < s.qcnt.toNat → Memory.read m k = Memory.read s.pix k :=
  ⟨⟨white20, _, rfl, by decide +kernel⟩,
    ⟨{ carrier 1 1 [0xFF#8, 0x00#8, 0x80#8] with q := [0#2, 3#2, 2#2] }, _, rfl, by decide⟩,
    ⟨header3, _, header3.pix ++ [(60, 1#8)], rfl, by decide +kernel, by decide +kernel, by decide +kernel⟩,
    ⟨white20, _, white20.pix ++ [(60, 1#8)], rfl, by decide +kernel, by decide +kernel, by decide +kernel⟩,
    ⟨{ carrier 1 1 [0xFC#8] with qcnt := 1#64 }, _, [(0, 0xFC#8), (1, 9#8)], rfl, by decide, by decide, by decide⟩⟩

theorem witness_ResultRegistersWriters : (∃ (a : HostAction) (s t : State), performAction a s = .next t) ∧
    (∃ s t : State, exec (.hide true) s = .next t ∧ t.err = 0#4) ∧
    ∃ s t : State, exec .extr s = .next t ∧ t.err = 0#4 :=
  ⟨⟨.writeReg 0 6, header3, _, rfl⟩, ⟨white20, _, rfl, by decide +kernel⟩, header3, _, rfl, by decide +kernel⟩

/-- HideExtractRoundTrip: a HIDE that succeeds, and a later state whose bytes past the frame differ. -/
theorem witness_HideExtractRoundTrip : ∃ s t u : State, s.inBuf.length ≤ s.config.maxB ∧ s.carrierLoaded ∧
    exec (.hide true) s = .next t ∧ t.err = 0#4 ∧ u.width = t.width ∧ u.height = t.height ∧ u.config = t.config ∧
    u.pix ≠ t.pix ∧ ∀ k, k < 48 + 4 * s.inBuf.length → Memory.read u.pix k = Memory.read t.pix k :=
  ⟨white20, (nextOf (exec (.hide true) white20)).getD State.reset,
    { (nextOf (exec (.hide true) white20)).getD State.reset with
      pix := Memory.write ((nextOf (exec (.hide true) white20)).getD State.reset).pix 56 0#8 },
    by decide, by decide +kernel, rfl, by decide +kernel, rfl, rfl, rfl, by decide +kernel, by decide +kernel⟩

theorem witness_HideBoundary : (∃ s : State, s.carrierLoaded ∧
      12 + s.inBuf.length ≤ s.width.toNat * s.height.toNat * 6 / 8) ∧
    ∃ s : State, s.carrierLoaded ∧ s.width.toNat * s.height.toNat * 6 / 8 < 12 + s.inBuf.length :=
  ⟨⟨white20, by decide +kernel⟩, { carrier 4 4 (List.replicate 48 0#8) with inBuf := [0x61#8] }, by decide +kernel⟩

theorem witness_StepKeepsInvariant : ∃ s t : State, s.Inv ∧ s.hostActions ≠ [] ∧ step s = .next t :=
  ⟨{ white20 with hostActions := [.writeReg 0 0x15] }, _, by decide +kernel, by decide, rfl⟩

theorem witness_ConfigurationNeverChanges : (∃ s t : State, s.hostActions ≠ [] ∧ step s = .next t) ∧
    ∃ s t : State, s.hostActions ≠ [] ∧ performAction .reset s = .next t :=
  ⟨⟨{ white20 with hostActions := [.reset] }, _, by decide, rfl⟩, { white20 with hostActions := [.readOUT] }, _,
    by decide, rfl⟩

theorem witness_GridRegisters : ∃ s : State, s.width.toNat * s.height.toNat > s.config.maxPix :=
  ⟨carrier 4097 1 [], by decide⟩

theorem witness_HostRegisterReads : (∃ s : State, s.inBuf.length < 2 ^ 64 ∧ s.q.length < 2 ^ 64 ∧
    s.out.length < 2 ^ 64) ∧ ∃ (s : State) (v : Nat), registerValue 10 s = some v :=
  ⟨⟨white20, by decide⟩, white20, 0, by decide⟩

theorem witness_QcntRegister : (∃ s t : State, exec .prd s = .next t ∧ t.err = 0#4) ∧
    (∃ s t : State, exec .extr s = .next t) ∧ ∃ (s : State) (f : Fault), exec .extr s = .fault f :=
  ⟨⟨{ header3 with qcnt := 3#64 }, _, rfl, by decide⟩, ⟨header3, _, rfl⟩, carrier 4 5 [], .unwrittenPixel, rfl⟩

theorem witness_HostLoadsAndPixels : (∃ (s : State) (bytes : List Byte), bytes.length ≤ s.config.maxB) ∧
    (∃ (s : State) (quads : List Quad), quads.length ≤ s.config.maxQ) ∧
    (∃ (s : State) (a : Nat), a < 3 * s.config.maxPix ∧ Memory.read s.pix a = some 0xFF#8) ∧
    ∃ (s : State) (a : Nat), a < 3 * s.config.maxPix ∧ Memory.read s.pix a = none :=
  ⟨⟨instanceOf 1 48 16 false State.reset, [1#8], by decide⟩,
    ⟨instanceOf 1 48 16 false State.reset, List.replicate 48 1#2, by decide⟩, ⟨white20, 59, by decide⟩,
    State.reset, 3 * 4096 - 1, by decide⟩

theorem witness_ReadsHaveNoSideEffect : (∃ s t : State, performAction (.readPix 59) s = .next t) ∧
    (∃ s t : State, exec .extr s = .next t) ∧
    ∃ (a : HostAction) (s t : State), a ≠ .reset ∧ (∀ v, a ≠ .writeReg 0 v) ∧ performAction a s = .next t :=
  ⟨⟨white20, _, rfl⟩, ⟨header3, _, rfl⟩, .writeReg 2 5, State.reset, _, by decide, by simp, rfl⟩

end Sys2Proof.Tests
end

section
/-! The statements about the state and the host interface (10_state.md): the result registers, QCNT, the refused
accesses and the grid registers. -/

namespace Sys2Proof

/-- The commands that use the grid (10_state.md R20). -/
def Instr.usesGrid : Instr → Bool
  | .ser _ | .des => false
  | .pwr | .prd | .hide _ | .extr => true

end Sys2Proof

namespace Sys2Proof.Machine

/-! ### How a command ends -/

theorem ErrorKind.code_ne_zero (kind : ErrorKind) : kind.code ≠ 0#4 := by
  cases kind <;> decide

/-- A command that ended by an error shows it in ERR. -/
theorem Raises.err_ne_zero {s t : State} {kind : ErrorKind} (h : Raises s t kind) : t.err ≠ 0#4 := by
  rw [h, State.err_setErr]
  exact kind.code_ne_zero

theorem execPrd_success {s t : State} (h : execPrd s = .next t) (herr : t.err = 0#4) :
    ∃ quads, readQuads s.pix 0 s.qcnt.toNat = some quads ∧ t = (s.setQ quads).setErr successCode := by
  rcases execPrd_next h with ⟨-, hr⟩ | ⟨-, -, hr⟩ | ⟨-, -, -, hr⟩ | ⟨-, -, -, hq⟩
  · exact absurd herr hr.err_ne_zero
  · exact absurd herr hr.err_ne_zero
  · exact absurd herr hr.err_ne_zero
  · exact hq

theorem execHide_success {e : Bool} {s t : State} (h : execHide e s = .next t) (herr : t.err = 0#4) :
    framedSize s.inBuf.length ≤ s.cap ∧
      ∃ m, writeQuads s.pix 0 (serialize (buildFrameLSB (magicFor e) s.inBuf) 3) = some m ∧ t = s.hidden e m := by
  rcases execHide_next h with ⟨-, hr⟩ | ⟨-, -, hr⟩ | ⟨-, hcap, hw⟩
  · exact absurd herr hr.err_ne_zero
  · exact absurd herr hr.err_ne_zero
  · exact ⟨hcap, hw⟩

theorem extractPayload_success {magic : Word} {len : DWord} {s t : State}
    (h : extractPayload magic len s = .next t) (herr : t.err = 0#4) :
    ∃ quads, readQuads s.pix 48 (4 * len.toNat) = some quads ∧ t = s.extracted magic len quads := by
  rcases extractPayload_next h with ⟨-, hr⟩ | ⟨-, -, hr⟩ | ⟨-, -, -, hr⟩ | ⟨-, -, -, hq⟩
  · exact absurd herr hr.err_ne_zero
  · exact absurd herr hr.err_ne_zero
  · exact absurd herr hr.err_ne_zero
  · exact hq

theorem execExtr_success {s t : State} (h : execExtr s = .next t) (herr : t.err = 0#4) :
    ∃ header quads magic len, readQuads s.pix 0 48 = some header ∧
      parseHeaderLSB (deserialize header) = (magic, len) ∧
      readQuads s.pix 48 (4 * len.toNat) = some quads ∧ t = s.extracted magic len quads := by
  rcases execExtr_next h with ⟨-, hr⟩ | ⟨-, -, hr⟩ | ⟨-, -, header, hh, hp⟩
  · exact absurd herr hr.err_ne_zero
  · exact absurd herr hr.err_ne_zero
  · obtain ⟨quads, hq, ht⟩ := extractPayload_success hp herr
    exact ⟨header, quads, _, _, hh, rfl, hq, ht⟩

@[simp] theorem State.hidden_err (s : State) (e : Bool) (m : Memory) : (s.hidden e m).err = 0#4 :=
  State.err_setErr _ _

@[simp] theorem State.extracted_err (s : State) (magic : Word) (len : DWord) (quads : List Quad) :
    (s.extracted magic len quads).err = 0#4 :=
  State.err_setErr _ _

/-! ### The header that a carrier holds -/

/-- Serializing what whole groups of four quads deserialize to gives the quads back. -/
theorem flatMap_byteToQuads_deserialize {qs : List Quad} (h : qs.length % 4 = 0) :
    (deserialize qs).flatMap byteToQuads = qs := by
  induction qs using deserialize.induct with
  | case1 q0 q1 q2 q3 rest ih =>
    have hrest : rest.length % 4 = 0 := by simp only [List.length_cons] at h; omega
    rw [deserialize, List.flatMap_cons, byteToQuads_quadsToByte, ih hrest]
    rfl
  | case2 qs hshort =>
    match qs with
    | [] => rfl
    | [_] | [_, _] | [_, _, _] => simp at h
    | q0 :: q1 :: q2 :: q3 :: rest => exact absurd rfl (hshort q0 q1 q2 q3 rest)

/-- BE_n inverts BEval through a register exactly n bytes wide. -/
theorem bigEndian_ofNat_bigEndianValue {n w : Nat} {s : List Byte} (hlen : s.length = n) (hw : 256 ^ n = 2 ^ w) :
    bigEndian n (BitVec.ofNat w (bigEndianValue s)).toNat = s := by
  subst hlen
  rw [BitVec.toNat_ofNat, Nat.mod_eq_of_lt (hw ▸ bigEndianValue_lt s), bigEndian_bigEndianValue]

/-- The two fields parsed from a 12-byte header encode to that header (41_lsb_frame.md R70, R71). -/
theorem bigEndian_parseHeaderLSB {h : List Byte} (hlen : h.length = 12) :
    bigEndian 4 (parseHeaderLSB h).1.toNat ++ bigEndian 8 (parseHeaderLSB h).2.toNat = h := by
  have hrest : (h.drop 4).take 8 = h.drop 4 := List.take_of_length_le (by simp [hlen])
  unfold parseHeaderLSB
  rw [hrest, bigEndian_ofNat_bigEndianValue (s := h.take 4) (by simp [hlen]) (by norm_num),
    bigEndian_ofNat_bigEndianValue (s := h.drop 4) (by simp [hlen]) (by norm_num), List.take_append_drop]

/-- A carrier whose first 48 quads can be read holds the header they parse to. -/
theorem State.headerIs_of_readQuads {s : State} {quads : List Quad} (h : readQuads s.pix 0 48 = some quads) :
    s.headerIs (parseHeaderLSB (deserialize quads)).1 (parseHeaderLSB (deserialize quads)).2 := by
  obtain ⟨hlen, hget⟩ := readQuads_some h
  have hbytes : (deserialize quads).length = 12 := by rw [deserialize_length, hlen]
  intro k hk
  obtain ⟨v, hv, hquad⟩ := hget k hk
  have hdigit := header_quad (parseHeaderLSB (deserialize quads)).1 _
    (parseHeaderLSB (deserialize quads)).2.isLt k hk
  rw [bigEndian_parseHeaderLSB hbytes, flatMap_byteToQuads_deserialize (by rw [hlen]), hquad,
    Option.some.injEq] at hdigit
  rw [Nat.zero_add] at hv
  rw [hv, Option.map_some, ← chanRead_toNat, hdigit, BitVec.toNat_ofNat]

/-! ### The result registers -/

/-- t holds the MAGIC, LEN and ENCF of s. -/
abbrev KeepsResultRegisters (s t : State) : Prop := t.magic = s.magic ∧ t.len = s.len ∧ t.encf = s.encf

theorem KeepsResultRegisters.setErr {s t : State} (h : KeepsResultRegisters s t) (c : BitVec 4) :
    KeepsResultRegisters s (t.setErr c) := by
  obtain ⟨hmagic, hlen, hencf⟩ := h
  exact ⟨hmagic, hlen, (State.encf_setErr t c).trans hencf⟩

theorem Raises.keepsResultRegisters {s t : State} {kind : ErrorKind} (h : Raises s t kind) :
    KeepsResultRegisters s t := by
  rw [h]
  exact KeepsResultRegisters.setErr ⟨rfl, rfl, rfl⟩ _

/-- A command writes MAGIC, LEN and ENCF only as a HIDE or EXTR that succeeds (10_state.md R22). -/
theorem exec_keepsResultRegisters_or_success {i : Instr} {s t : State} (h : exec i s = .next t) :
    KeepsResultRegisters s t ∨ t.err = 0#4 ∧ (i = .extr ∨ ∃ e, i = .hide e) := by
  cases i with
  | ser pb =>
    rcases execSer_next h with ⟨-, hr⟩ | ⟨-, -, hr⟩ | ⟨-, -, rfl⟩
    · exact .inl hr.keepsResultRegisters
    · exact .inl hr.keepsResultRegisters
    · exact .inl (KeepsResultRegisters.setErr ⟨rfl, rfl, rfl⟩ _)
  | des =>
    rcases execDes_next h with ⟨-, -, hr⟩ | ⟨-, -, hr⟩ | ⟨-, -, rfl⟩
    · exact .inl hr.keepsResultRegisters
    · exact .inl hr.keepsResultRegisters
    · exact .inl (KeepsResultRegisters.setErr ⟨rfl, rfl, rfl⟩ _)
  | pwr =>
    rcases execPwr_next h with ⟨-, hr⟩ | ⟨-, -, hr⟩ | ⟨-, -, -, hr⟩ | ⟨-, -, -, m, -, rfl⟩
    · exact .inl hr.keepsResultRegisters
    · exact .inl hr.keepsResultRegisters
    · exact .inl hr.keepsResultRegisters
    · exact .inl (KeepsResultRegisters.setErr ⟨rfl, rfl, rfl⟩ _)
  | prd =>
    rcases execPrd_next h with ⟨-, hr⟩ | ⟨-, -, hr⟩ | ⟨-, -, -, hr⟩ | ⟨-, -, -, quads, -, rfl⟩
    · exact .inl hr.keepsResultRegisters
    · exact .inl hr.keepsResultRegisters
    · exact .inl hr.keepsResultRegisters
    · exact .inl (KeepsResultRegisters.setErr ⟨rfl, rfl, rfl⟩ _)
  | hide e =>
    rcases execHide_next h with ⟨-, hr⟩ | ⟨-, -, hr⟩ | ⟨-, -, m, -, rfl⟩
    · exact .inl hr.keepsResultRegisters
    · exact .inl hr.keepsResultRegisters
    · exact .inr ⟨s.hidden_err e m, .inr ⟨e, rfl⟩⟩
  | extr =>
    rcases execExtr_next h with ⟨-, hr⟩ | ⟨-, -, hr⟩ | ⟨-, -, header, -, hp⟩
    · exact .inl hr.keepsResultRegisters
    · exact .inl hr.keepsResultRegisters
    rcases extractPayload_next hp with ⟨-, hr⟩ | ⟨-, -, hr⟩ | ⟨-, -, -, hr⟩ | ⟨-, -, -, quads, -, rfl⟩
    · exact .inl hr.keepsResultRegisters
    · exact .inl hr.keepsResultRegisters
    · exact .inl hr.keepsResultRegisters
    · exact .inr ⟨s.extracted_err _ _ quads, .inl rfl⟩

/-- A host action writes MAGIC, LEN and ENCF only as the reset or as a CMD write whose HIDE or EXTR succeeds. -/
theorem performAction_keepsResultRegisters_or {a : HostAction} {s t : State} (h : performAction a s = .next t) :
    KeepsResultRegisters s t ∨ a = .reset ∨
      ∃ w : Word, a = .writeReg 0 w.toNat ∧ t.err = 0#4 ∧
        (decode w = .ok .extr ∨ ∃ e, decode w = .ok (.hide e)) := by
  cases performAction_next h with
  | @command v _ hv hcmd =>
    have hw : v = (BitVec.ofNat 32 v).toNat := by rw [BitVec.toNat_ofNat, Nat.mod_eq_of_lt hv]
    rcases issueCommand_next hcmd with ⟨-, -, rfl⟩ | ⟨i, hi, hexec⟩
    · exact .inl (KeepsResultRegisters.setErr ⟨rfl, rfl, rfl⟩ _)
    rcases exec_keepsResultRegisters_or_success hexec with hkeep | ⟨herr, rfl | ⟨e, rfl⟩⟩
    · exact .inl hkeep
    · exact .inr (.inr ⟨_, congrArg _ hw, herr, .inl hi⟩)
    · exact .inr (.inr ⟨_, congrArg _ hw, herr, .inr ⟨e, hi⟩⟩)
  | reset => exact .inr (.inl rfl)
  | width | height | qcnt | register | loadIN | loadQ | readIN | readQ | readOUT | writePix | readPix =>
    exact .inl ⟨rfl, rfl, rfl⟩

/-- CAP fits 64 bits (10_state.md R23). -/
theorem State.cap_lt (s : State) : s.cap < 2 ^ 64 := by
  have hpixels : s.width.toNat * s.height.toNat < 2 ^ 32 * 2 ^ 32 :=
    Nat.mul_lt_mul'' s.width.isLt s.height.isLt
  unfold State.cap capacity
  omega

/-- Settles O44: the two inversion lemmas above give the writers, and the header lemma what EXTR leaves. -/
theorem resultRegistersWriters : Obligations.ResultRegistersWriters := by
  refine ⟨fun a s t h => performAction_keepsResultRegisters_or h, fun e s t h herr => ?_, fun s t h herr => ?_,
    rfl, rfl⟩
  · obtain ⟨hfits, m, -, rfl⟩ := execHide_success h herr
    have hlen : s.inBuf.length < 2 ^ 64 := by
      have hcap := s.cap_lt
      unfold framedSize at hfits
      omega
    exact ⟨rfl, (BitVec.toNat_ofNat _ _).trans (Nat.mod_eq_of_lt hlen)⟩
  · obtain ⟨header, quads, magic, len, hread, hparse, -, rfl⟩ := execExtr_success h herr
    have hheader := State.headerIs_of_readQuads hread
    rw [hparse] at hheader
    exact hheader

/-! ### QCNT -/

/-- An outcome with f applied to its next state. -/
def mapNext (f : State → State) : Out → Out
  | .next s => .next (f s)
  | .fault r => .fault r
  | .refused r => .refused r

theorem mapNext_ite (f : State → State) (p : Prop) [Decidable p] (x y : Out) :
    mapNext f (if p then x else y) = if p then mapNext f x else mapNext f y :=
  apply_ite (mapNext f) p x y

theorem execSer_setQcnt (pb : Nat) (s : State) (v : DWord) :
    execSer pb (s.setQcnt v) = mapNext (·.setQcnt v) (execSer pb s) := by
  simp only [execSer, mapNext_ite]
  rfl

theorem execDes_setQcnt (s : State) (v : DWord) :
    execDes (s.setQcnt v) = mapNext (·.setQcnt v) (execDes s) := by
  simp only [execDes, mapNext_ite]
  rfl

theorem execPwr_setQcnt (s : State) (v : DWord) :
    execPwr (s.setQcnt v) = mapNext (·.setQcnt v) (execPwr s) := by
  simp only [execPwr, mapNext_ite, State.setQcnt_pix, State.setQcnt_q]
  cases writeQuads s.pix 0 s.q <;> rfl

theorem execHide_setQcnt (e : Bool) (s : State) (v : DWord) :
    execHide e (s.setQcnt v) = mapNext (·.setQcnt v) (execHide e s) := by
  simp only [execHide, mapNext_ite, State.setQcnt_pix, State.setQcnt_inBuf]
  cases writeQuads s.pix 0 (serialize (buildFrameLSB (magicFor e) s.inBuf) 3) <;> rfl

theorem extractPayload_setQcnt (magic : Word) (len : DWord) (s : State) (v : DWord) :
    extractPayload magic len (s.setQcnt v) = mapNext (·.setQcnt v) (extractPayload magic len s) := by
  simp only [extractPayload, mapNext_ite, State.setQcnt_pix]
  cases readQuads s.pix 48 (4 * len.toNat) <;> rfl

theorem execExtr_setQcnt (s : State) (v : DWord) :
    execExtr (s.setQcnt v) = mapNext (·.setQcnt v) (execExtr s) := by
  simp only [execExtr, mapNext_ite, State.setQcnt_pix, extractPayload_setQcnt]
  cases readQuads s.pix 0 48 <;> rfl

/-- Only PRD reads QCNT (10_state.md R21): any other command carries a change of it through to its outcome. -/
theorem exec_setQcnt {i : Instr} (hi : i ≠ .prd) (s : State) (v : DWord) :
    exec i (s.setQcnt v) = mapNext (·.setQcnt v) (exec i s) := by
  cases i with
  | ser pb => exact execSer_setQcnt pb s v
  | des => exact execDes_setQcnt s v
  | pwr => exact execPwr_setQcnt s v
  | prd => exact absurd rfl hi
  | hide e => exact execHide_setQcnt e s v
  | extr => exact execExtr_setQcnt s v

/-! ### Register writes within the register's width -/

theorem performAction_writeReg_width (s : State) (v : Word) :
    performAction (.writeReg 2 v.toNat) s = .next (s.setWidth v) := by
  simp [performAction, hostWriteReg, v.isLt]

theorem performAction_writeReg_height (s : State) (v : Word) :
    performAction (.writeReg 3 v.toNat) s = .next (s.setHeight v) := by
  simp [performAction, hostWriteReg, v.isLt]

theorem performAction_writeReg_qcnt (s : State) (v : DWord) :
    performAction (.writeReg 4 v.toNat) s = .next (s.setQcnt v) := by
  simp [performAction, hostWriteReg, v.isLt]

/-- Settles O54: PRD's reading pass has QCNT quads, and `exec_setQcnt` is the independence. -/
theorem qcntRegister : Obligations.QcntRegister := by
  refine ⟨fun s v => ⟨performAction_writeReg_qcnt s v, rfl⟩, fun s t h herr => ?_, fun i s v hi => ?_, rfl⟩
  · obtain ⟨quads, hread, rfl⟩ := execPrd_success h herr
    exact (readQuads_some hread).1
  · have hcarry := exec_setQcnt hi s v
    exact ⟨fun t h => by rw [h] at hcarry; exact hcarry, fun f h => by rw [h] at hcarry; exact hcarry⟩

/-! ### Refused accesses -/

/-- The outcome is a refusal. -/
def Refuses (o : Out) : Prop := ∃ r, o = .refused r

@[simp] theorem not_refuses_next (s : State) : ¬ Refuses (.next s) := nofun

@[simp] theorem not_refuses_fault (f : Fault) : ¬ Refuses (.fault f) := nofun

@[simp] theorem refuses_refused (r : Refusal) : Refuses (.refused r) := ⟨r, rfl⟩

@[simp] theorem not_refuses_raise (kind : ErrorKind) (s : State) : ¬ Refuses (raise kind s) := nofun

@[simp] theorem not_refuses_succeed (s : State) : ¬ Refuses (succeed s) := nofun

@[simp] theorem refuses_ite (p : Prop) [Decidable p] (x y : Out) :
    Refuses (if p then x else y) ↔ if p then Refuses x else Refuses y :=
  iff_of_eq (apply_ite Refuses p x y)

/-- An access with a guard is refused exactly where the guard fails. -/
theorem refuses_guard_iff {p : Prop} [Decidable p] {o : Out} {r : Refusal} (ho : ¬ Refuses o) :
    Refuses (if p then o else .refused r) ↔ ¬ p := by
  simp [ho]

@[simp] theorem not_refuses_extractPayload (magic : Word) (len : DWord) (s : State) :
    ¬ Refuses (extractPayload magic len s) := by
  unfold extractPayload
  cases readQuads s.pix 48 (4 * len.toNat) <;> simp

/-- No command is refused in any state. -/
theorem not_refuses_exec (i : Instr) (s : State) : ¬ Refuses (exec i s) := by
  cases i with
  | ser pb => simp [exec, execSer]
  | des => simp [exec, execDes]
  | pwr => cases hw : writeQuads s.pix 0 s.q <;> simp [exec, execPwr, hw]
  | prd => cases hr : readQuads s.pix 0 s.qcnt.toNat <;> simp [exec, execPrd, hr]
  | hide e =>
    cases hw : writeQuads s.pix 0 (serialize (buildFrameLSB (magicFor e) s.inBuf) 3) <;> simp [exec, execHide, hw]
  | extr => cases hr : readQuads s.pix 0 48 <;> simp [exec, execExtr, hr]

theorem not_refuses_issueCommand (w : Word) (s : State) : ¬ Refuses (issueCommand w s) := by
  unfold issueCommand
  cases decode w with
  | ok i => exact not_refuses_exec i s
  | error e => exact not_refuses_raise .illegalCommand s

theorem refuses_hostWriteReg_iff (i v : Nat) (s : State) :
    Refuses (hostWriteReg i v s) ↔
      (i = 1 ∨ 5 ≤ i) ∨ ((i = 0 ∨ i = 2 ∨ i = 3) ∧ 2 ^ 32 ≤ v ∨ i = 4 ∧ 2 ^ 64 ≤ v) := by
  match i with
  | 0 => exact (refuses_guard_iff (not_refuses_issueCommand _ s)).trans (by omega)
  | 1 => simp [hostWriteReg]
  | 2 | 3 | 4 => exact (refuses_guard_iff (not_refuses_next _)).trans (by omega)
  | n + 5 => simp [hostWriteReg]

theorem refuses_hostReadReg_iff (i : Nat) (s : State) : Refuses (hostReadReg i s) ↔ i = 0 ∨ 11 ≤ i := by
  match i with
  | 0 | 1 | 2 | 3 | 4 | 5 | 6 | 7 | 8 | 9 | 10 => simp [hostReadReg, registerValue]
  | n + 11 => simp [hostReadReg, registerValue]

theorem refuses_hostLoadIN_iff (bytes : List Byte) (s : State) :
    Refuses (hostLoadIN bytes s) ↔ s.config.maxB < bytes.length :=
  (refuses_guard_iff (not_refuses_next _)).trans Nat.not_le

theorem refuses_hostLoadQ_iff (quads : List Quad) (s : State) :
    Refuses (hostLoadQ quads s) ↔ s.config.maxQ < quads.length :=
  (refuses_guard_iff (not_refuses_next _)).trans Nat.not_le

theorem refuses_hostWritePix_iff (p : Nat) (v : Byte) (s : State) :
    Refuses (hostWritePix p v s) ↔ 3 * s.config.maxPix ≤ p :=
  (refuses_guard_iff (not_refuses_next _)).trans Nat.not_lt

/-- A byte that holds no value is a fault and no refusal (10_state.md R28). -/
theorem refuses_hostReadPix_iff (p : Nat) (s : State) :
    Refuses (hostReadPix p s) ↔ 3 * s.config.maxPix ≤ p := by
  unfold hostReadPix
  cases Memory.read s.pix p with
  | some v => exact (refuses_guard_iff (not_refuses_next _)).trans Nat.not_lt
  | none => exact (refuses_guard_iff (not_refuses_fault _)).trans Nat.not_lt

/-- Settles O56, one kind of host action at a time. -/
theorem refusedAccesses : Obligations.RefusedAccesses := by
  intro a s
  change Refuses (performAction a s) ↔ _
  cases a with
  | writeReg i v => simpa [performAction] using refuses_hostWriteReg_iff i v s
  | readReg i => simpa [performAction] using refuses_hostReadReg_iff i s
  | loadIN bytes => simpa [performAction] using refuses_hostLoadIN_iff bytes s
  | loadQ quads => simpa [performAction] using refuses_hostLoadQ_iff quads s
  | writePix p v => simpa [performAction] using refuses_hostWritePix_iff p v s
  | readPix p => simpa [performAction] using refuses_hostReadPix_iff p s
  | readIN | readQ | readOUT | reset => simp [performAction]

/-! ### The grid registers -/

/-- A grid that does not fit PIX turns every command that uses it away with ParamError. -/
theorem exec_of_gridPixels_gt {i : Instr} {s : State} (hi : i.usesGrid = true)
    (hgrid : s.gridPixels > s.config.maxPix) : exec i s = .next (s.errorEntry 5) := by
  have hraise : raise .paramError s = .next (s.errorEntry 5) :=
    congrArg _ (State.errorEntry_eq_setErr s 5#4).symm
  rw [← hraise]
  cases i with
  | ser | des => cases hi
  | pwr | prd | hide | extr => exact if_pos hgrid

/-- Settles O53: the two register writes, and the check every grid command makes first. -/
theorem gridRegisters : Obligations.GridRegisters :=
  ⟨fun s v => ⟨performAction_writeReg_width s v, rfl, rfl, performAction_writeReg_height s v, rfl, rfl⟩,
    fun _ hgrid => ⟨exec_of_gridPixels_gt rfl hgrid, exec_of_gridPixels_gt rfl hgrid,
      fun _ => exec_of_gridPixels_gt rfl hgrid, exec_of_gridPixels_gt rfl hgrid⟩,
    rfl, rfl⟩

end Sys2Proof.Machine
end

section
/-! The statement about side effects (20_memory.md R43): what a CMD write, a host read and any other access leave. -/

namespace Sys2Proof.Machine

/-- A write of CMD within its 32 bits issues its word (10_state.md R18). -/
theorem performAction_writeReg_cmd (s : State) (w : Word) :
    performAction (.writeReg 0 w.toNat) s = issueCommand w s := by
  simp [performAction, hostWriteReg, w.isLt]

/-- A host read leaves one more reply with the host, and nothing else. -/
theorem performAction_read_next {a : HostAction} {s t : State}
    (ha : (∃ i, a = .readReg i) ∨ a = .readIN ∨ a = .readQ ∨ a = .readOUT ∨ ∃ p, a = .readPix p)
    (h : performAction a s = .next t) : ∃ r, t = s.reply r := by
  obtain ⟨i, rfl⟩ | rfl | rfl | rfl | ⟨p, rfl⟩ := ha
  all_goals
    cases performAction_next h
    exact ⟨_, rfl⟩

theorem Raises.pix_eq {s t : State} {kind : ErrorKind} (h : Raises s t kind) : t.pix = s.pix := by
  rw [h, State.setErr_pix]

theorem execPrd_pix {s t : State} (h : execPrd s = .next t) : t.pix = s.pix := by
  rcases execPrd_next h with ⟨-, hr⟩ | ⟨-, -, hr⟩ | ⟨-, -, -, hr⟩ | ⟨-, -, -, quads, -, rfl⟩
  · exact hr.pix_eq
  · exact hr.pix_eq
  · exact hr.pix_eq
  · rw [State.setErr_pix, State.setQ_pix]

@[simp] theorem State.extracted_pix (s : State) (magic : Word) (len : DWord) (quads : List Quad) :
    (s.extracted magic len quads).pix = s.pix :=
  rfl

theorem extractPayload_pix {magic : Word} {len : DWord} {s t : State}
    (h : extractPayload magic len s = .next t) : t.pix = s.pix := by
  rcases extractPayload_next h with ⟨-, hr⟩ | ⟨-, -, hr⟩ | ⟨-, -, -, hr⟩ | ⟨-, -, -, quads, -, rfl⟩
  · exact hr.pix_eq
  · exact hr.pix_eq
  · exact hr.pix_eq
  · exact s.extracted_pix magic len quads

theorem execExtr_pix {s t : State} (h : execExtr s = .next t) : t.pix = s.pix := by
  rcases execExtr_next h with ⟨-, hr⟩ | ⟨-, -, hr⟩ | ⟨-, -, header, -, hp⟩
  · exact hr.pix_eq
  · exact hr.pix_eq
  · exact extractPayload_pix hp

/-- Settles O57: a CMD write is its command, a read is one reply, PRD and EXTR reach no state with another PIX, and
each remaining access is an update of the one field that it names. -/
theorem readsHaveNoSideEffect : Obligations.ReadsHaveNoSideEffect := by
  refine ⟨fun w s => performAction_writeReg_cmd s w, fun a s t ha h => ?_, fun i s t hi h => ?_,
    fun a s t hreset hcmd h => ?_⟩
  · obtain ⟨r, rfl⟩ := performAction_read_next ha h
    rfl
  · obtain rfl | rfl := hi
    · exact execPrd_pix h
    · exact execExtr_pix h
  · cases performAction_next h with
    | reset => exact absurd rfl hreset
    | @command v => exact absurd rfl (hcmd v)
    | register | readIN | readQ | readOUT | readPix => simp
    | width | height | qcnt => simp
    | loadIN | loadQ | writePix => simp

end Sys2Proof.Machine
end

section
/-! The statements about command words (30_encoding.md R53, R54): which words the decoder accepts, and that
IllegalCommand is the decoder's error alone. -/

namespace Sys2Proof

/-! ### The decoder in the numbers of a word's fields -/

/-- The value of OP that means this operation (30_encoding.md R50). -/
def Op.code : Op → Nat
  | .ser => 1
  | .des => 2
  | .pwr => 3
  | .prd => 4
  | .hide => 5
  | .extr => 6

theorem opOfCode_eq_some_iff {c : BitVec 4} {op : Op} : opOfCode c = some op ↔ c.toNat = op.code := by
  cases op <;> revert c <;> decide

theorem opOfCode_eq_none_iff {c : BitVec 4} : opOfCode c = none ↔ ¬(1 ≤ c.toNat ∧ c.toNat ≤ 6) := by
  revert c
  decide

theorem Op.exists_code_eq {n : Nat} (hpos : 1 ≤ n) (hle : n ≤ 6) : ∃ op : Op, n = op.code := by
  match n with
  | 1 => exact ⟨.ser, rfl⟩
  | 2 => exact ⟨.des, rfl⟩
  | 3 => exact ⟨.pwr, rfl⟩
  | 4 => exact ⟨.prd, rfl⟩
  | 5 => exact ⟨.hide, rfl⟩
  | 6 => exact ⟨.extr, rfl⟩

theorem Op.code_bounds (op : Op) : 1 ≤ op.code ∧ op.code ≤ 6 := by
  cases op <;> decide

theorem Op.eq_hide_iff {op : Op} : op = .hide ↔ op.code = 5 := by
  cases op <;> decide

theorem Op.eq_ser_iff {op : Op} : op = .ser ↔ op.code = 1 := by
  cases op <;> decide

theorem fieldRes0_eq_zero_iff {w : Word} : fieldRes0 w = 0#3 ↔ w.toNat / 2 ^ 5 % 8 = 0 := by
  rw [← BitVec.toNat_inj, fieldRes0_toNat]
  rfl

theorem fieldRes1_eq_zero_iff {w : Word} : fieldRes1 w = 0#16 ↔ w.toNat / 2 ^ 16 = 0 := by
  rw [← BitVec.toNat_inj, fieldRes1_toNat]
  rfl

theorem fieldPB_eq_zero_iff {w : Word} : fieldPB w = 0#8 ↔ w.toNat / 2 ^ 8 % 256 = 0 := by
  rw [← BitVec.toNat_inj, fieldPB_toNat]
  rfl

theorem fieldE_eq_true_iff {w : Word} : fieldE w = true ↔ w.toNat / 2 ^ 4 % 2 ≠ 0 := by
  rw [fieldE_eq, decide_eq_true_iff]
  omega

/-- The first check of R53. -/
theorem decode_of_op_reserved {w : Word} (hop : ¬(1 ≤ w.toNat % 16 ∧ w.toNat % 16 ≤ 6)) :
    decode w = .error .reservedOp := by
  rw [← fieldOp_toNat, ← opOfCode_eq_none_iff] at hop
  simp only [decode, hop]

/-- The checks of R53 that follow the first, in their order. -/
theorem decode_of_op {w : Word} {op : Op} (hop : w.toNat % 16 = op.code) :
    decode w =
      if w.toNat / 2 ^ 16 ≠ 0 ∨ w.toNat / 2 ^ 5 % 8 ≠ 0 then .error .reservedBits
      else if w.toNat / 2 ^ 4 % 2 ≠ 0 ∧ w.toNat % 16 ≠ 5 then .error .encOutsideHide
      else if w.toNat / 2 ^ 8 % 256 ≠ 0 ∧ w.toNat % 16 ≠ 1 then .error .pbOutsideSer
      else .ok (instrOfOp op (decide (w.toNat / 2 ^ 4 % 2 = 1)) (w.toNat / 2 ^ 8 % 256)) := by
  have hsome : opOfCode (fieldOp w) = some op := opOfCode_eq_some_iff.mpr ((fieldOp_toNat w).trans hop)
  simp only [decode, hsome, ne_eq, fieldRes1_eq_zero_iff, fieldRes0_eq_zero_iff, fieldPB_eq_zero_iff,
    Op.eq_hide_iff, Op.eq_ser_iff, ← hop, fieldE_eq, decide_eq_true_eq, Nat.mod_two_not_eq_zero, fieldPB_toNat]

/-- A word that passes the four checks of R53, its fields as numbers. -/
structure LegalWord (w : Word) : Prop where
  op_pos : 1 ≤ w.toNat % 16
  op_le : w.toNat % 16 ≤ 6
  res1_zero : w.toNat / 2 ^ 16 = 0
  res0_zero : w.toNat / 2 ^ 5 % 8 = 0
  enc : w.toNat / 2 ^ 4 % 2 = 0 ∨ w.toNat % 16 = 5
  pb : w.toNat / 2 ^ 8 % 256 = 0 ∨ w.toNat % 16 = 1

/-- A legal word decodes to the command of its OP. -/
theorem LegalWord.decode_eq {w : Word} (h : LegalWord w) {op : Op} (hop : w.toNat % 16 = op.code) :
    decode w = .ok (instrOfOp op (decide (w.toNat / 2 ^ 4 % 2 = 1)) (w.toNat / 2 ^ 8 % 256)) := by
  obtain ⟨-, -, hres1, hres0, henc, hpb⟩ := h
  rw [decode_of_op hop, if_neg (by omega), if_neg (by omega), if_neg (by omega)]

theorem LegalWord.of_decode {w : Word} {i : Instr} (h : decode w = .ok i) : LegalWord w := by
  obtain ⟨op, hop, hres1, hres0, henc, hpb, -⟩ := decode_ok h
  rw [opOfCode_eq_some_iff, fieldOp_toNat] at hop
  rw [fieldE_eq_true_iff, Op.eq_hide_iff, ← hop] at henc
  rw [ne_eq, fieldPB_eq_zero_iff, Op.eq_ser_iff, ← hop] at hpb
  obtain ⟨hpos, hle⟩ := op.code_bounds
  exact ⟨hop ▸ hpos, hop ▸ hle, fieldRes1_eq_zero_iff.mp hres1, fieldRes0_eq_zero_iff.mp hres0,
    Decidable.or_iff_not_imp_left.mpr henc, Decidable.or_iff_not_imp_left.mpr hpb⟩

/-- The decoder accepts exactly the legal words (R53). -/
theorem exists_decode_eq_ok_iff {w : Word} : (∃ i, decode w = .ok i) ↔ LegalWord w := by
  constructor
  · rintro ⟨i, hi⟩
    exact .of_decode hi
  · intro h
    obtain ⟨op, hop⟩ := Op.exists_code_eq h.op_pos h.op_le
    exact ⟨_, h.decode_eq hop⟩

theorem exists_decode_eq_error_iff {w : Word} : (∃ e, decode w = .error e) ↔ ¬ LegalWord w := by
  rw [← exists_decode_eq_ok_iff]
  cases decode w <;> simp

end Sys2Proof

namespace Sys2Proof.Machine

/-! ### Issuing a word -/

theorem issueCommand_of_decode_ok {w : Word} {i : Instr} (h : decode w = .ok i) (s : State) :
    issueCommand w s = exec i s := by
  simp only [issueCommand, h]

theorem issueCommand_of_decode_error {w : Word} {e : DecodeError} (h : decode w = .error e) (s : State) :
    issueCommand w s = .next (s.errorEntry 4) := by
  have hentry : s.errorEntry 4 = s.setErr ErrorKind.illegalCommand.code := s.errorEntry_eq_setErr 4#4
  simp only [issueCommand, h, raise_eq, hentry]

/-- Settles O1: `decode_of_op` has the checks in their order, and `LegalWord.decode_eq` the command when all pass. -/
theorem decoderFollowsCheckOrder : Obligations.DecoderFollowsCheckOrder := by
  intro w
  refine ⟨decode_of_op_reserved, fun hpos hle hres => ?_, fun hpos hle hres1 hres0 he hop => ?_,
    fun hpos hle hres1 hres0 henc hpb hop => ?_, fun hpos hle hres1 hres0 henc hpb => ?_,
    fun e s h => issueCommand_of_decode_error h s, fun i s h => issueCommand_of_decode_ok h s⟩
  · obtain ⟨op, hcode⟩ := Op.exists_code_eq hpos hle
    rw [decode_of_op hcode, if_pos hres]
  · obtain ⟨op, hcode⟩ := Op.exists_code_eq hpos hle
    rw [decode_of_op hcode, if_neg (by omega), if_pos ⟨he, hop⟩]
  · obtain ⟨op, hcode⟩ := Op.exists_code_eq hpos hle
    rw [decode_of_op hcode, if_neg (by omega), if_neg (by omega), if_pos ⟨hpb, hop⟩]
  · have hlegal : LegalWord w := ⟨hpos, hle, hres1, hres0, henc, hpb⟩
    exact ⟨hlegal.decode_eq (op := .ser), hlegal.decode_eq (op := .des), hlegal.decode_eq (op := .pwr),
      hlegal.decode_eq (op := .prd), hlegal.decode_eq (op := .hide), hlegal.decode_eq (op := .extr)⟩

/-! ### The errors of the command rules -/

/-- t is an ending of a command that began at s: a success, or an error that is not the decoder's
(60_exceptions.md R85, R89). -/
def EndsCommand (s t : State) : Prop := t.err = successCode ∨ ∃ kind, kind ≠ .illegalCommand ∧ Raises s t kind

theorem EndsCommand.success (s t : State) : EndsCommand s (t.setErr successCode) :=
  .inl (State.err_setErr t successCode)

theorem Raises.endsCommand {s t : State} {kind : ErrorKind} (h : Raises s t kind)
    (hkind : kind ≠ .illegalCommand) : EndsCommand s t :=
  .inr ⟨kind, hkind, h⟩

theorem extractPayload_endsCommand {magic : Word} {len : DWord} {s t : State}
    (h : extractPayload magic len s = .next t) : EndsCommand s t := by
  rcases extractPayload_next h with ⟨-, hr⟩ | ⟨-, -, hr⟩ | ⟨-, -, -, hr⟩ | ⟨-, -, -, quads, -, rfl⟩
  · exact hr.endsCommand nofun
  · exact hr.endsCommand nofun
  · exact hr.endsCommand nofun
  · exact .success s _

theorem exec_endsCommand {i : Instr} {s t : State} (h : exec i s = .next t) : EndsCommand s t := by
  cases i with
  | ser pb =>
    rcases execSer_next h with ⟨-, hr⟩ | ⟨-, -, hr⟩ | ⟨-, -, rfl⟩
    · exact hr.endsCommand nofun
    · exact hr.endsCommand nofun
    · exact .success s _
  | des =>
    rcases execDes_next h with ⟨-, -, hr⟩ | ⟨-, -, hr⟩ | ⟨-, -, rfl⟩
    · exact hr.endsCommand nofun
    · exact hr.endsCommand nofun
    · exact .success s _
  | pwr =>
    rcases execPwr_next h with ⟨-, hr⟩ | ⟨-, -, hr⟩ | ⟨-, -, -, hr⟩ | ⟨-, -, -, m, -, rfl⟩
    · exact hr.endsCommand nofun
    · exact hr.endsCommand nofun
    · exact hr.endsCommand nofun
    · exact .success s _
  | prd =>
    rcases execPrd_next h with ⟨-, hr⟩ | ⟨-, -, hr⟩ | ⟨-, -, -, hr⟩ | ⟨-, -, -, quads, -, rfl⟩
    · exact hr.endsCommand nofun
    · exact hr.endsCommand nofun
    · exact hr.endsCommand nofun
    · exact .success s _
  | hide e =>
    rcases execHide_next h with ⟨-, hr⟩ | ⟨-, -, hr⟩ | ⟨-, -, m, -, rfl⟩
    · exact hr.endsCommand nofun
    · exact hr.endsCommand nofun
    · exact .success s _
  | extr =>
    rcases execExtr_next h with ⟨-, hr⟩ | ⟨-, -, hr⟩ | ⟨-, -, header, -, hp⟩
    · exact hr.endsCommand nofun
    · exact hr.endsCommand nofun
    · exact extractPayload_endsCommand hp

theorem ErrorKind.code_eq_four_iff {kind : ErrorKind} : kind.code = 4#4 ↔ kind = .illegalCommand := by
  cases kind <;> decide

theorem EndsCommand.err_ne_illegalCommand {s t : State} (h : EndsCommand s t) : t.err ≠ 4#4 := by
  rcases h with herr | ⟨kind, hkind, rfl⟩
  · rw [herr]
    decide
  · rw [State.err_setErr]
    exact mt ErrorKind.code_eq_four_iff.mp hkind

/-- Settles O5: the words listed are the ones that are not legal, and `exec_endsCommand` is the last clause. -/
theorem illegalWordsRaiseIllegalCommand : Obligations.IllegalWordsRaiseIllegalCommand := by
  refine ⟨fun w s => ⟨fun hillegal => ?_, fun hlisted => ?_⟩, fun i s t h =>
    (exec_endsCommand h).err_ne_illegalCommand⟩
  · have hnot : ¬ LegalWord w := fun ⟨hpos, hle, hres1, hres0, henc, hpb⟩ => by omega
    obtain ⟨e, he⟩ := exists_decode_eq_error_iff.mpr hnot
    exact issueCommand_of_decode_error he s
  · have hlegal : LegalWord w := by constructor <;> omega
    obtain ⟨i, hi⟩ := exists_decode_eq_ok_iff.mpr hlegal
    exact ⟨i, hi, issueCommand_of_decode_ok hi s⟩

end Sys2Proof.Machine
end

section
/-! The statements about the symbol codec (40_symbol_codec.md R59 to R64): the lanes of a byte, the padded stream, the
groups that deserialize reads, and the laws that join the two directions. -/

namespace Sys2Proof.Machine

/-! ### One byte and its four quads -/

/-- The four lanes of a byte in numbers (40_symbol_codec.md R59). -/
theorem map_toNat_byteToQuads (b : Byte) : (byteToQuads b).map BitVec.toNat =
    [b.toNat / 64 % 4, b.toNat / 16 % 4, b.toNat / 4 % 4, b.toNat % 4] := by
  simp [byteToQuads, BitVec.extractLsb'_toNat, Nat.shiftRight_eq_div_pow]

/-- A byte is the base-4 number of its lanes, and the lanes of `quadsToByte` are its arguments. -/
theorem toNat_quadsToByte (q0 q1 q2 q3 : Quad) :
    (quadsToByte q0 q1 q2 q3).toNat = q0.toNat * 64 + q1.toNat * 16 + q2.toNat * 4 + q3.toNat := by
  have hlanes := map_toNat_byteToQuads (quadsToByte q0 q1 q2 q3)
  rw [byteToQuads_quadsToByte] at hlanes
  simp only [List.map_cons, List.map_nil, List.cons.injEq, and_true] at hlanes
  obtain ⟨h0, h1, h2, h3⟩ := hlanes
  have hbyte := (quadsToByte q0 q1 q2 q3).isLt
  omega

/-- Settles O9: the lanes in numbers, and the example computed. -/
theorem byteToQuadsLanes : Obligations.ByteToQuadsLanes :=
  ⟨map_toNat_byteToQuads, by decide⟩

/-- Settles O10: the value, and the two directions of the inverse. -/
theorem quadsToByteInverse : Obligations.QuadsToByteInverse :=
  ⟨toNat_quadsToByte, fun b => ⟨_, _, _, _, rfl, quadsToByte_byteToQuads b⟩, byteToQuads_quadsToByte⟩

/-! ### The padded stream -/

theorem dvd_paddedLength (n p : Nat) : p ∣ paddedLength n p := Nat.dvd_mul_left _ _

/-- The padded length is at most every multiple of p that is at least n (40_symbol_codec.md R62). -/
theorem paddedLength_le_of_dvd {n p m : Nat} (hp : 1 ≤ p) (hdvd : p ∣ m) (hle : n ≤ m) : paddedLength n p ≤ m := by
  obtain ⟨k, rfl⟩ := hdvd
  have hceil : (n + p - 1) / p ≤ k := (Nat.ceilDiv_eq_add_pred_div n p) ▸ (ceilDiv_le_iff_le_mul hp).mpr hle
  calc paddedLength n p = (n + p - 1) / p * p := rfl
    _ ≤ k * p := Nat.mul_le_mul_right p hceil
    _ = p * k := Nat.mul_comm k p

@[simp] theorem padCount_zero (p : Nat) : padCount 0 p = 0 := by simp [padCount]

@[simp] theorem padCount_one (n : Nat) : padCount n 1 = 0 := Nat.mod_one _

/-- A serialized stream is four quads a byte and then the padding (40_symbol_codec.md R61). -/
theorem serialize_length_eq_add_padCount (bs : List Byte) (p : Nat) :
    (serialize bs p).length = 4 * bs.length + padCount (4 * bs.length) p := by
  rw [serialize, List.length_append, List.length_replicate, length_flatMap_byteToQuads]

/-- A quad that belongs to a byte of the input is that byte's lane, whatever the padding. -/
theorem serialize_getElem?_lane {bs : List Byte} {i : Nat} {b : Byte} (p : Nat) (h : bs[i / 4]? = some b) :
    (serialize bs p)[i]? = some (BitVec.ofNat 2 (b.toNat / 4 ^ (3 - i % 4))) := by
  obtain ⟨hi, -⟩ := List.getElem?_eq_some_iff.mp h
  rw [serialize_getElem?_lt bs p i (by omega), flatMap_byteToQuads_getElem? bs i b h]

@[simp] theorem serialize_nil (p : Nat) : serialize [] p = [] := by simp [serialize]

@[simp] theorem serialize_one (bs : List Byte) : serialize bs 1 = bs.flatMap byteToQuads := by simp [serialize]

/-- Settles O11: the lanes, the padding quads, and the padded length. -/
theorem serializeQuadByQuad : Obligations.SerializeQuadByQuad := by
  intro bs p hp
  refine ⟨fun i b h => serialize_getElem?_lane p h, serialize_getElem?_pad bs p,
    serialize_length_eq_add_padCount bs p, Nat.le_sub_one_of_lt (padCount_lt _ hp), ?_⟩
  rw [serialize_length bs hp]
  exact dvd_paddedLength _ p

/-- Settles O12: the length is the padded length, and it is the stream's plus a padding below p. -/
theorem serializedLength : Obligations.SerializedLength := by
  intro bs p hp
  have hsum := serialize_length_eq_add_padCount bs p
  refine ⟨serialize_length bs hp, ⟨by omega, fun n hdvd hle => ?_⟩, ?_, ?_, ?_, ?_⟩
  · rw [serialize_length bs hp]
    exact paddedLength_le_of_dvd hp hdvd hle
  · rintro rfl
    rw [hsum, padCount_one, Nat.add_zero]
  · rintro rfl
    have hpad := padCount_lt (4 * bs.length) hp
    omega
  · rintro rfl
    exact serialize_nil p
  · rw [hsum]
    exact Nat.dvd_add_right (Nat.dvd_mul_right 4 bs.length)

/-! ### The groups that deserialize reads -/

/-- Byte i is made of the four quads of group i (40_symbol_codec.md R63). -/
theorem deserialize_getElem? {qs : List Quad} {i : Nat} {q0 q1 q2 q3 : Quad} (h0 : qs[4 * i]? = some q0)
    (h1 : qs[4 * i + 1]? = some q1) (h2 : qs[4 * i + 2]? = some q2) (h3 : qs[4 * i + 3]? = some q3) :
    (deserialize qs)[i]? = some (quadsToByte q0 q1 q2 q3) := by
  induction qs using deserialize.induct generalizing i with
  | case1 r0 r1 r2 r3 rest ih =>
    cases i with
    | zero =>
      cases h0; cases h1; cases h2; cases h3
      rfl
    | succ i => exact ih h0 h1 h2 h3
  | case2 qs hshort =>
    obtain ⟨hlt, -⟩ := List.getElem?_eq_some_iff.mp h3
    match qs with
    | [] | [_] | [_, _] | [_, _, _] => simp only [List.length_cons, List.length_nil] at hlt; omega
    | r0 :: r1 :: r2 :: r3 :: rest => exact absurd rfl (hshort r0 r1 r2 r3 rest)

/-- Whole groups of quads deserialize apart from what follows them. -/
theorem deserialize_append {qs : List Quad} (h : qs.length % 4 = 0) (tail : List Quad) :
    deserialize (qs ++ tail) = deserialize qs ++ deserialize tail := by
  conv_lhs => rw [← flatMap_byteToQuads_deserialize h, deserialize_flatMap_append]

/-- The last len mod 4 quads are not read (40_symbol_codec.md R63). -/
theorem deserialize_append_short {qs tail : List Quad} (h : qs.length % 4 = 0) (htail : tail.length < 4) :
    deserialize (qs ++ tail) = deserialize qs := by
  rw [deserialize_append h, deserialize_of_length_lt htail, List.append_nil]

/-- Settles O13: the number of groups, each group's byte, and the quads that are not read. -/
theorem deserializeGroups : Obligations.DeserializeGroups :=
  fun qs => ⟨deserialize_length qs, fun _ _ _ _ _ => deserialize_getElem?, fun _ => deserialize_append_short⟩

/-! ### The codec laws -/

/-- Four zero quads deserialize to a zero byte. -/
theorem deserialize_replicate_zero : ∀ n : Nat,
    deserialize (List.replicate n 0#2) = List.replicate (n / 4) 0#8
  | 0 | 1 | 2 | 3 => rfl
  | n + 4 => by
    show quadsToByte 0#2 0#2 0#2 0#2 :: deserialize (List.replicate n 0#2) = _
    rw [deserialize_replicate_zero n, Nat.add_div_right n (by decide)]
    rfl

/-- The padding decodes to z div 4 zero bytes after the input (40_symbol_codec.md R64). -/
theorem deserialize_serialize (bs : List Byte) (p : Nat) :
    deserialize (serialize bs p) = bs ++ List.replicate (padCount (4 * bs.length) p / 4) 0#8 := by
  rw [serialize, deserialize_flatMap_append, deserialize_replicate_zero, length_flatMap_byteToQuads]

/-- Fewer than four padding quads decode to nothing. -/
theorem deserialize_serialize_of_le_four (bs : List Byte) {p : Nat} (hp : 1 ≤ p) (hle : p ≤ 4) :
    deserialize (serialize bs p) = bs := by
  have hpad := padCount_lt (4 * bs.length) hp
  rw [deserialize_serialize, Nat.div_eq_of_lt (by omega), List.replicate_zero, List.append_nil]

/-- Serializing what a stream deserializes to gives back its whole groups (40_symbol_codec.md R64). -/
theorem serialize_deserialize (qs : List Quad) :
    serialize (deserialize qs) 1 = qs.take (4 * (qs.length / 4)) := by
  have hwhole : (qs.take (4 * (qs.length / 4))).length % 4 = 0 := by rw [List.length_take]; omega
  have hrest : (qs.drop (4 * (qs.length / 4))).length < 4 := by rw [List.length_drop]; omega
  have hread : deserialize qs = deserialize (qs.take (4 * (qs.length / 4))) := by
    rw [← deserialize_append_short hwhole hrest, List.take_append_drop]
  rw [serialize_one, hread, flatMap_byteToQuads_deserialize hwhole]

/-- Settles O14: what the padding decodes to, the padding that decodes to nothing, and the whole groups given back. -/
theorem codecLaws : Obligations.CodecLaws :=
  ⟨fun b => deserialize_serialize_of_le_four b (by decide) (by decide), fun b p _ => deserialize_serialize b p,
    fun b _ => deserialize_serialize_of_le_four b, deserialize_serialize [0x01#8] 9, serialize_deserialize⟩

end Sys2Proof.Machine
end

section
/-! The statements about the LSB frame (41_lsb_frame.md R69 to R72): the registry's functions, the frame byte by byte,
the parsed header, and what the codec makes of a frame. -/

namespace Sys2Proof.Machine

/-! ### The magic registry -/

theorem encOf_iff (m : Word) : encOf m = true ↔ m = magicEncryptedLSB := by simp [encOf]

/-- Settles O15: the magics' values, the two equivalences, and the two trailer magics turned away. -/
theorem magicSelection : Obligations.MagicSelection :=
  ⟨rfl, rfl, isLSBMagic_iff, encOf_iff, by decide, by decide⟩

/-! ### The frame byte by byte -/

/-- The first four bytes of a frame are its magic (41_lsb_frame.md R70). -/
theorem buildFrameLSB_getElem?_magic (magic : Word) (payload : List Byte) {i : Nat} (hi : i < 4) :
    (buildFrameLSB magic payload)[i]? = some (BitVec.ofNat 8 (magic.toNat / 256 ^ (3 - i))) := by
  rw [buildFrameLSB, List.append_assoc, List.getElem?_append_left (by simpa using hi), bigEndian_getElem? _ _ _ hi]

/-- The next eight bytes are the payload's length. -/
theorem buildFrameLSB_getElem?_length (magic : Word) (payload : List Byte) {i : Nat} (hi : i < 8) :
    (buildFrameLSB magic payload)[4 + i]? = some (BitVec.ofNat 8 (payload.length / 256 ^ (7 - i))) := by
  rw [buildFrameLSB, List.append_assoc, List.getElem?_append_right (by simp), bigEndian_length, Nat.add_sub_cancel_left,
    List.getElem?_append_left (by simpa using hi), bigEndian_getElem? _ _ _ hi]

/-- The payload follows the 12 bytes of the header. -/
theorem buildFrameLSB_getElem?_payload (magic : Word) (payload : List Byte) (i : Nat) :
    (buildFrameLSB magic payload)[12 + i]? = payload[i]? := by
  have hheader : (bigEndian 4 magic.toNat ++ bigEndian 8 payload.length).length = 12 := by simp
  rw [buildFrameLSB, List.getElem?_append_right (by omega), hheader, Nat.add_sub_cancel_left]

/-- Settles O16: the length, the three parts of the frame, and the example computed. -/
theorem frameLayout : Obligations.FrameLayout :=
  ⟨fun magic payload _ => ⟨buildFrameLSB_length magic payload, fun _ => buildFrameLSB_getElem?_magic magic payload,
    fun _ => buildFrameLSB_getElem?_length magic payload, buildFrameLSB_getElem?_payload magic payload⟩, by decide⟩

/-! ### The parsed header -/

/-- The first byte of a big-endian field weighs 256 to the number of bytes after it (00_scope.md R11). -/
theorem bigEndianValue_cons (b : Byte) (s : List Byte) :
    bigEndianValue (b :: s) = b.toNat * 256 ^ s.length + bigEndianValue s := by
  induction s using List.reverseRecOn with
  | nil => simp [bigEndianValue]
  | append_singleton s c ih =>
    rw [← List.cons_append, bigEndianValue_append_singleton, bigEndianValue_append_singleton, ih,
      List.length_append, List.length_singleton, pow_succ]
    ring

@[simp] theorem bigEndianValue_nil : bigEndianValue [] = 0 := rfl

/-- Four bytes and eight bytes fit the two fields they parse to, so neither value wraps (41_lsb_frame.md R71). -/
theorem toNat_parseHeaderLSB_append {s t : List Byte} (hs : s.length = 4) (ht : t.length = 8) :
    (parseHeaderLSB (s ++ t)).1.toNat = bigEndianValue s ∧ (parseHeaderLSB (s ++ t)).2.toNat = bigEndianValue t := by
  have hmagic := bigEndianValue_lt s
  have hlength := bigEndianValue_lt t
  rw [hs] at hmagic
  rw [ht] at hlength
  rw [parseHeaderLSB, List.take_left' hs, List.drop_left' hs, List.take_of_length_le ht.le]
  exact ⟨Nat.mod_eq_of_lt hmagic, Nat.mod_eq_of_lt hlength⟩

/-- Settles O17: the values of the two fields, expanded byte by byte. -/
theorem headerParse : Obligations.HeaderParse := by
  intro m0 m1 m2 m3 l0 l1 l2 l3 l4 l5 l6 l7
  obtain ⟨hmagic, hlength⟩ := toNat_parseHeaderLSB_append (s := [m0, m1, m2, m3])
    (t := [l0, l1, l2, l3, l4, l5, l6, l7]) rfl rfl
  constructor
  · refine hmagic.trans ?_
    simp [bigEndianValue_cons, add_assoc]
  · refine hlength.trans ?_
    simp [bigEndianValue_cons, add_assoc]

/-! ### The frame as quads -/

/-- The quads of the first n bytes do not depend on what follows them, nor on the padding (40_symbol_codec.md R61). -/
theorem serialize_take (bs : List Byte) (p : Nat) {n : Nat} (hn : n ≤ bs.length) :
    (serialize bs p).take (4 * n) = serialize (bs.take n) 1 := by
  have htake : ((bs.take n).flatMap byteToQuads).length = 4 * n := by
    rw [length_flatMap_byteToQuads, List.length_take_of_le hn]
  have hsplit : bs.flatMap byteToQuads = (bs.take n).flatMap byteToQuads ++ (bs.drop n).flatMap byteToQuads := by
    rw [← List.flatMap_append, List.take_append_drop]
  rw [serialize_one, serialize, hsplit, List.append_assoc, List.take_left' htake]

/-- Whole pixels: the padded stream is 3·ceil(4F/3) quads (41_lsb_frame.md R72). -/
theorem serialize_three_length (bs : List Byte) : (serialize bs 3).length = 3 * ((4 * bs.length + 2) / 3) := by
  rw [serialize_length bs (by decide), paddedLength, Nat.mul_comm]
  rfl

/-- The header of a frame is 48 quads, whatever the frame's padding (41_lsb_frame.md R72). -/
theorem serialize_frame_header (magic : Word) (payload : List Byte) (p : Nat) :
    (serialize ((buildFrameLSB magic payload).take 12) 1).length = 48 ∧
    (serialize (buildFrameLSB magic payload) p).take 48 = serialize ((buildFrameLSB magic payload).take 12) 1 := by
  constructor
  · rw [serialize_one, length_flatMap_byteToQuads, buildFrameLSB_take_header]
    simp
  · exact serialize_take _ p (n := 12) (by simp)

/-- Settles O18: the header's 48 quads and their pixels, the padding of a frame, and the header read back. -/
theorem frameFacts : Obligations.FrameFacts := by
  refine ⟨fun magic payload p _ => serialize_frame_header magic payload p, fun k hk => by omega, by decide, by decide,
    fun frame => ⟨serialize_three_length frame, by omega, fun k => serialize_getElem?_pad frame 3 k⟩, ?_⟩
  intro magic payload _
  rw [buildFrameLSB_take_header, parseHeaderLSB_header]

end Sys2Proof.Machine
end

section
/-! The statements about the LSB embedder (42_lsb_embedder.md R75 to R84): the channel functions, the capacity test, the
footprint of the four pixel commands, and what EXTR recovers of a HIDE. -/

namespace Sys2Proof.Machine

/-! ### One channel byte -/

/-- Writing back the quad a channel holds changes nothing (42_lsb_embedder.md R76). -/
theorem chanWrite_chanRead (v : Byte) : chanWrite v (chanRead v) = v := by
  apply BitVec.eq_of_toNat_eq
  rw [chanWrite_toNat, chanRead_toNat]
  omega

/-- A channel write keeps bits 7:2 (42_lsb_embedder.md R75). -/
theorem chanWrite_toNat_div_four (v : Byte) (q : Quad) : (chanWrite v q).toNat / 4 = v.toNat / 4 := by
  have hq := q.isLt
  rw [chanWrite_toNat]
  omega

/-- Settles O20: the value of a write gives the first law, its two low bits are the quad's, and the rest are the lemmas
of the channel functions. -/
theorem channelLaws : Obligations.ChannelLaws :=
  ⟨fun v q => ⟨chanWrite_toNat v q, by simp [chanWrite], by simp [chanWrite]⟩, chanRead_toNat, chanRead_chanWrite,
    chanWrite_chanRead⟩

/-! ### The capacity test -/

/-- The byte test is the test that the frame's quads fit the grid (42_lsb_embedder.md R77). -/
theorem le_capacity_iff (w h f : Nat) : f ≤ capacity w h ↔ 4 * f ≤ 3 * w * h := by
  rw [capacity, Nat.mul_assoc 3]
  omega

/-- Padding to whole pixels does not change whether a frame fits a grid of whole pixels. -/
theorem paddedQuads_le_iff (w h f : Nat) : 3 * ((4 * f + 2) / 3) ≤ 3 * w * h ↔ 4 * f ≤ 3 * w * h := by
  rw [Nat.mul_assoc 3]
  omega

theorem State.framedSize_le_cap_iff (s : State) (n : Nat) :
    framedSize n ≤ s.cap ↔ 4 * (12 + n) ≤ s.gridChannels := by
  rw [State.cap, le_capacity_iff, Nat.mul_assoc 3]
  rfl

/-- A frame that fits is stored within the grid. -/
theorem State.hiddenQuads_le_gridChannels {s : State} {n : Nat} (h : framedSize n ≤ s.cap) :
    hiddenQuads n ≤ s.gridChannels := by
  rw [State.framedSize_le_cap_iff] at h
  have hchannels : s.gridChannels = 3 * s.gridPixels := rfl
  unfold hiddenQuads
  omega

/-- A payload whose frame fits the grid has a length that LEN can hold (10_state.md R23). -/
theorem State.lt_of_framedSize_le_cap {s : State} {n : Nat} (h : framedSize n ≤ s.cap) : n < 2 ^ 64 := by
  have hcap := s.cap_lt
  unfold framedSize at h
  omega

theorem execHide_of_cap_lt {e : Bool} {s : State} (hgrid : s.gridPixels ≤ s.config.maxPix)
    (hcap : framedSize s.inBuf.length > s.cap) : execHide e s = raise .capacityExceeded s := by
  rw [execHide, if_neg hgrid.not_gt, if_pos hcap]

theorem execHide_of_writeQuads {e : Bool} {s : State} {m : Memory} (hgrid : s.gridPixels ≤ s.config.maxPix)
    (hfits : framedSize s.inBuf.length ≤ s.cap)
    (hwrite : writeQuads s.pix 0 (serialize (buildFrameLSB (magicFor e) s.inBuf) 3) = some m) :
    execHide e s = .next (s.hidden e m) := by
  rw [execHide, if_neg hgrid.not_gt, if_neg hfits.not_gt, hwrite]
  rfl

/-- A HIDE whose frame fits ends with ParamError or with success. -/
theorem execHide_err_ne_capacityExceeded {e : Bool} {s t : State} (hfits : framedSize s.inBuf.length ≤ s.cap)
    (h : execHide e s = .next t) : t.err ≠ ErrorKind.capacityExceeded.code := by
  rcases execHide_next h with ⟨-, rfl⟩ | ⟨-, hcap, -⟩ | ⟨-, -, m, -, rfl⟩
  · rw [State.err_setErr]
    decide
  · exact absurd hfits hcap.not_ge
  · rw [State.hidden_err]
    decide

/-- Settles O21: the two sides of HIDE's test, and the test's exactness as linear arithmetic in W·H. -/
theorem capacityTest : Obligations.CapacityTest := by
  refine ⟨fun e s hgrid hcap => ?_, fun e s t hfits h => execHide_err_ne_capacityExceeded hfits h,
    fun w h f => ⟨rfl, (le_capacity_iff w h f).trans (paddedQuads_le_iff w h f).symm, le_capacity_iff w h f⟩, rfl⟩
  exact (execHide_of_cap_lt hgrid hcap).trans (congrArg _ (State.errorEntry_eq_setErr s 1#4).symm)

/-- On a loaded carrier the writing pass of a frame that fits completes. -/
theorem State.carrierLoaded.exists_writeQuads {s : State} (hloaded : s.carrierLoaded) (e : Bool)
    (hfits : framedSize s.inBuf.length ≤ s.cap) :
    ∃ m, writeQuads s.pix 0 (serialize (buildFrameLSB (magicFor e) s.inBuf) 3) = some m := by
  rw [← Option.isSome_iff_exists, writeQuads_isSome, serialize_frame_length]
  intro k hk
  rw [Nat.zero_add]
  exact hloaded.2 k (hk.trans_le (State.hiddenQuads_le_gridChannels hfits))

/-- Settles O46: HIDE's test decides which of its two endings on a loaded carrier is reached. -/
theorem hideBoundary : Obligations.HideBoundary := by
  refine ⟨fun e s hloaded => ?_, by decide, by decide, by decide⟩
  rcases Nat.lt_or_ge s.cap (framedSize s.inBuf.length) with hcap | hfits
  · exact ⟨_, execHide_of_cap_lt hloaded.1 hcap, fun hle => absurd hle hcap.not_ge, fun _ => State.err_setErr s 1#4⟩
  · obtain ⟨m, hwrite⟩ := hloaded.exists_writeQuads e hfits
    exact ⟨_, execHide_of_writeQuads hloaded.1 hfits hwrite, fun _ => s.hidden_err e m,
      fun hlt => absurd hlt (Nat.not_lt.mpr hfits)⟩

/-! ### The footprint of the passes over the pixel memory -/

/-- A writing pass keeps bits 7:2 of every byte (42_lsb_embedder.md R83). -/
theorem writeQuads_highBits {m m' : Memory} {qs : List Quad} {start : Nat} (h : writeQuads m start qs = some m')
    (a : Nat) : (Memory.read m' a).map (fun v => v.toNat / 4) = (Memory.read m a).map (fun v => v.toNat / 4) := by
  obtain ⟨hout, hin⟩ := writeQuads_some h
  by_cases ha : a < start ∨ start + qs.length ≤ a
  · rw [hout a ha]
  · have hk : a - start < qs.length := by omega
    obtain ⟨v, hv, hv'⟩ := hin (a - start) _ (List.getElem?_eq_getElem hk)
    rw [show start + (a - start) = a by omega] at hv hv'
    rw [hv, hv', Option.map_some, Option.map_some, chanWrite_toNat_div_four]

theorem execPwr_success {s t : State} (h : execPwr s = .next t) (herr : t.err = 0#4) :
    ∃ m, writeQuads s.pix 0 s.q = some m ∧ t = (s.setPix m).setErr successCode := by
  rcases execPwr_next h with ⟨-, hr⟩ | ⟨-, -, hr⟩ | ⟨-, -, -, hr⟩ | ⟨-, -, -, hw⟩
  · exact absurd herr hr.err_ne_zero
  · exact absurd herr hr.err_ne_zero
  · exact absurd herr hr.err_ne_zero
  · exact hw

/-- Every byte that a completed reading pass reads holds a value. -/
theorem isSome_read_of_readQuads {m : Memory} {start n a : Nat} {quads : List Quad}
    (h : readQuads m start n = some quads) (hstart : start ≤ a) (ha : a < start + n) :
    (Memory.read m a).isSome = true := by
  obtain ⟨k, rfl⟩ := Nat.exists_eq_add_of_le hstart
  exact (readQuads_isSome m n start).mp (by rw [h]; rfl) k (by omega)

/-! ### PRD and EXTR over another pixel memory -/

@[simp] theorem State.extracted_len (s : State) (magic : Word) (len : DWord) (quads : List Quad) :
    (s.extracted magic len quads).len = len :=
  rfl

@[simp] theorem State.extracted_encf (s : State) (magic : Word) (len : DWord) (quads : List Quad) :
    (s.extracted magic len quads).encf = encOf magic := by
  rw [State.extracted, State.encf_setErr, State.encf_setEncf]

theorem extractPayload_of_readQuads {magic : Word} {len : DWord} {s : State} {quads : List Quad}
    (hmagic : isLSBMagic magic = true) (hfits : 48 + 4 * len.toNat ≤ s.gridChannels)
    (hlen : len.toNat ≤ s.config.maxB) (hread : readQuads s.pix 48 (4 * len.toNat) = some quads) :
    extractPayload magic len s = .next (s.extracted magic len quads) := by
  rw [extractPayload, if_neg (by simp [hmagic]), if_neg hfits.not_gt, if_neg hlen.not_gt, hread]
  rfl

theorem execExtr_of_readQuads {s : State} {header : List Quad} (hgrid : s.gridPixels ≤ s.config.maxPix)
    (hchannels : 48 ≤ s.gridChannels) (hread : readQuads s.pix 0 48 = some header) :
    execExtr s =
      extractPayload (parseHeaderLSB (deserialize header)).1 (parseHeaderLSB (deserialize header)).2 s := by
  rw [execExtr, if_neg hgrid.not_gt, if_neg hchannels.not_gt, hread]

/-- EXTR past the header, over another pixel memory: only a success reads further bytes. -/
theorem extractPayload_setPix {magic : Word} {len : DWord} {s t : State} {m : Memory}
    (h : extractPayload magic len s = .next t)
    (hagree : t.err = 0#4 → ∀ k, k < 4 * t.len.toNat → Memory.read m (48 + k) = Memory.read s.pix (48 + k)) :
    extractPayload magic len (s.setPix m) = .next (t.setPix m) := by
  rcases extractPayload_next h with
    ⟨hmagic, rfl⟩ | ⟨hmagic, hfits, rfl⟩ | ⟨hmagic, hfits, hlen, rfl⟩ | ⟨hmagic, hfits, hlen, quads, hread, rfl⟩
  · rw [extractPayload, if_pos hmagic]
    rfl
  · rw [extractPayload, if_neg (by simp [hmagic]), State.setPix_gridChannels, if_pos hfits]
    rfl
  · rw [extractPayload, if_neg (by simp [hmagic]), State.setPix_gridChannels, if_neg hfits.not_gt, State.setPix_config,
      if_pos hlen]
    rfl
  · have hsame : readQuads m 48 (4 * len.toNat) = some quads :=
      (readQuads_congr (hagree (s.extracted_err magic len quads))).trans hread
    exact extractPayload_of_readQuads (s := s.setPix m) hmagic hfits hlen hsame

/-- EXTR over another pixel memory: it reads bytes 0 to 47, and 4·L more when it succeeds
(42_lsb_embedder.md R83). -/
theorem execExtr_setPix {s t : State} {m : Memory} (h : execExtr s = .next t)
    (hheader : ∀ k, k < 48 → Memory.read m k = Memory.read s.pix k)
    (hpayload : t.err = 0#4 → ∀ k, k < 4 * t.len.toNat → Memory.read m (48 + k) = Memory.read s.pix (48 + k)) :
    execExtr (s.setPix m) = .next (t.setPix m) := by
  rcases execExtr_next h with ⟨hgrid, rfl⟩ | ⟨hgrid, hchannels, rfl⟩ | ⟨hgrid, hchannels, header, hread, hrest⟩
  · exact if_pos hgrid
  · rw [execExtr, State.setPix_gridPixels, State.setPix_config, if_neg hgrid.not_gt, State.setPix_gridChannels,
      if_pos hchannels]
    rfl
  · have hsame : readQuads m 0 48 = some header := by
      rw [← hread]
      exact readQuads_congr fun k hk => by rw [Nat.zero_add]; exact hheader k hk
    rw [execExtr_of_readQuads (s := s.setPix m) hgrid hchannels hsame]
    exact extractPayload_setPix hrest hpayload

/-- PRD over another pixel memory: a success reads the bytes of QCNT quads. -/
theorem execPrd_setPix {s t : State} {m : Memory} (h : execPrd s = .next t) (herr : t.err = 0#4)
    (hagree : ∀ k, k < s.qcnt.toNat → Memory.read m k = Memory.read s.pix k) :
    execPrd (s.setPix m) = .next (t.setPix m) := by
  rcases execPrd_next h with ⟨-, hr⟩ | ⟨-, -, hr⟩ | ⟨-, -, -, hr⟩ | ⟨hgrid, hchannels, hmax, quads, hread, rfl⟩
  · exact absurd herr hr.err_ne_zero
  · exact absurd herr hr.err_ne_zero
  · exact absurd herr hr.err_ne_zero
  · have hsame : readQuads m 0 s.qcnt.toNat = some quads := by
      rw [← hread]
      exact readQuads_congr fun k hk => by rw [Nat.zero_add]; exact hagree k hk
    rw [execPrd, State.setPix_gridPixels, State.setPix_config, if_neg hgrid.not_gt, State.setPix_gridChannels,
      State.setPix_qcnt, if_neg hchannels.not_gt, if_neg hmax.not_gt, State.setPix_pix, hsame]
    rfl

/-- A successful EXTR finds values in the header's bytes and in the payload's. -/
theorem execExtr_pixHeld {s t : State} (h : execExtr s = .next t) (herr : t.err = 0#4) :
    s.pixHeld (48 + 4 * t.len.toNat) := by
  obtain ⟨header, quads, magic, len, hheader, -, hpayload, rfl⟩ := execExtr_success h herr
  rw [State.extracted_len]
  intro k hk
  rcases Nat.lt_or_ge k 48 with hlt | hge
  · exact isSome_read_of_readQuads hheader (Nat.zero_le k) (by omega)
  · exact isSome_read_of_readQuads hpayload hge hk

/-- Settles O43: the writing pass for HIDE and PWR, the reading passes for EXTR and PRD. -/
theorem embedderFootprint : Obligations.EmbedderFootprint := by
  refine ⟨fun e s t h herr => ?_, fun s t h herr => ?_, fun s t m h herr => ?_, fun s t m h herr hagree => ?_,
    fun s t m h herr => ?_⟩
  · obtain ⟨-, m, hwrite, rfl⟩ := execHide_success h herr
    refine ⟨writeQuads_highBits hwrite, fun a ha => (writeQuads_some hwrite).1 a (.inr ?_)⟩
    rwa [Nat.zero_add, serialize_frame_length]
  · obtain ⟨m, hwrite, rfl⟩ := execPwr_success h herr
    refine ⟨writeQuads_highBits hwrite, fun a ha => (writeQuads_some hwrite).1 a (.inr ?_)⟩
    rwa [Nat.zero_add]
  · exact ⟨execExtr_pixHeld h herr, fun hagree =>
      execExtr_setPix h (fun k hk => hagree k (by omega)) fun _ k hk => hagree (48 + k) (by omega)⟩
  · exact execExtr_setPix h hagree fun hzero => absurd hzero herr
  · obtain ⟨quads, hread, -⟩ := execPrd_success h herr
    exact ⟨fun k hk => isSome_read_of_readQuads hread (Nat.zero_le k) (by omega), execPrd_setPix h herr⟩

/-! ### What EXTR recovers of a HIDE -/

/-- A reading pass gives these quads exactly when each of its bytes holds its own. -/
theorem readQuads_eq_some_iff (m : Memory) (start : Nat) (quads : List Quad) :
    readQuads m start quads.length = some quads ↔
      ∀ k q, quads[k]? = some q → (Memory.read m (start + k)).map chanRead = some q := by
  constructor
  · intro h k q hq
    obtain ⟨v, hv, hquad⟩ := (readQuads_some h).2 k (List.getElem?_eq_some_iff.mp hq).1
    rw [hv, Option.map_some, ← hquad, hq]
  · intro h
    have hheld : (readQuads m start quads.length).isSome = true := by
      refine (readQuads_isSome m _ start).mpr fun k hk => ?_
      rw [← Option.isSome_map (f := chanRead), h k _ (List.getElem?_eq_getElem hk)]
      rfl
    obtain ⟨read, hread⟩ := Option.isSome_iff_exists.mp hheld
    obtain ⟨hlen, hget⟩ := readQuads_some hread
    rw [hread, Option.some.injEq]
    refine List.ext_getElem? fun k => ?_
    rcases Nat.lt_or_ge k quads.length with hk | hk
    · obtain ⟨v, hv, hquad⟩ := hget k hk
      have hown := h k _ (List.getElem?_eq_getElem hk)
      rw [hv] at hown
      rw [hquad, List.getElem?_eq_getElem hk, ← hown, Option.map_some]
    · rw [List.getElem?_eq_none (by omega), List.getElem?_eq_none hk]

/-- Reading back what a writing pass wrote gives the quads (42_lsb_embedder.md R76). -/
theorem readQuads_of_writeQuads {m m' : Memory} {start : Nat} {quads : List Quad}
    (h : writeQuads m start quads = some m') : readQuads m' start quads.length = some quads := by
  rw [readQuads_eq_some_iff]
  intro k q hq
  obtain ⟨v, -, hv'⟩ := (writeQuads_some h).2 k q hq
  rw [hv', Option.map_some, chanRead_chanWrite]

/-- A reading pass is the pass over its first part followed by the pass over the rest. -/
theorem readQuads_append {m : Memory} {start : Nat} {front back : List Quad}
    (h : readQuads m start (front ++ back).length = some (front ++ back)) :
    readQuads m start front.length = some front ∧
      readQuads m (start + front.length) back.length = some back := by
  simp only [readQuads_eq_some_iff] at h ⊢
  constructor
  · intro k q hq
    exact h k q (by rw [List.getElem?_append_left (List.getElem?_eq_some_iff.mp hq).1, hq])
  · intro k q hq
    rw [Nat.add_assoc]
    exact h (front.length + k) q (by rw [List.getElem?_append_right (by omega), Nat.add_sub_cancel_left, hq])

/-- The 48 quads of a frame's header (41_lsb_frame.md R72). -/
def headerQuads (magic : Word) (n : Nat) : List Quad :=
  (bigEndian 4 magic.toNat ++ bigEndian 8 n).flatMap byteToQuads

@[simp] theorem headerQuads_length (magic : Word) (n : Nat) : (headerQuads magic n).length = 48 := by
  rw [headerQuads, length_flatMap_byteToQuads, List.length_append, bigEndian_length, bigEndian_length]

theorem deserialize_flatMap_byteToQuads (bs : List Byte) : deserialize (bs.flatMap byteToQuads) = bs := by
  rw [← serialize_one]
  exact deserialize_serialize_of_le_four bs (by decide) (by decide)

theorem parseHeaderLSB_headerQuads (magic : Word) (n : Nat) :
    parseHeaderLSB (deserialize (headerQuads magic n)) = (magic, BitVec.ofNat 64 n) := by
  rw [headerQuads, deserialize_flatMap_byteToQuads, parseHeaderLSB_header]

/-- A serialized frame is its header's quads, its payload's quads and the padding. -/
theorem exists_serialize_frame (magic : Word) (payload : List Byte) (p : Nat) : ∃ padding,
    serialize (buildFrameLSB magic payload) p =
      headerQuads magic payload.length ++ (payload.flatMap byteToQuads ++ padding) := by
  rw [serialize, buildFrameLSB, List.flatMap_append, List.append_assoc]
  exact ⟨_, rfl⟩

/-- What a HIDE's writing pass leaves for EXTR to read: the header in bytes 0 to 47 and the payload after it. -/
theorem readQuads_of_writeQuads_frame {m m' : Memory} {magic : Word} {payload : List Byte} {p : Nat}
    (h : writeQuads m 0 (serialize (buildFrameLSB magic payload) p) = some m') :
    readQuads m' 0 48 = some (headerQuads magic payload.length) ∧
      readQuads m' 48 (4 * payload.length) = some (payload.flatMap byteToQuads) := by
  obtain ⟨padding, hframe⟩ := exists_serialize_frame magic payload p
  rw [hframe] at h
  obtain ⟨hheader, hrest⟩ := readQuads_append (readQuads_of_writeQuads h)
  obtain ⟨hpayload, -⟩ := readQuads_append hrest
  rw [headerQuads_length] at hheader hpayload
  rw [length_flatMap_byteToQuads, Nat.zero_add] at hpayload
  exact ⟨hheader, hpayload⟩

/-- EXTR on a carrier whose quads are a header with an LSB magic and its payload. -/
theorem execExtr_of_frame {s : State} {magic : Word} {payload : List Byte}
    (hgrid : s.gridPixels ≤ s.config.maxPix) (hmagic : isLSBMagic magic = true)
    (hfits : 48 + 4 * payload.length ≤ s.gridChannels) (hmax : payload.length ≤ s.config.maxB)
    (hlen : payload.length < 2 ^ 64)
    (hheader : readQuads s.pix 0 48 = some (headerQuads magic payload.length))
    (hpayload : readQuads s.pix 48 (4 * payload.length) = some (payload.flatMap byteToQuads)) :
    execExtr s =
      .next (s.extracted magic (BitVec.ofNat 64 payload.length) (payload.flatMap byteToQuads)) := by
  have htoNat : (BitVec.ofNat 64 payload.length).toNat = payload.length := by
    rw [BitVec.toNat_ofNat, Nat.mod_eq_of_lt hlen]
  rw [execExtr_of_readQuads hgrid (by omega) hheader, parseHeaderLSB_headerQuads]
  exact extractPayload_of_readQuads hmagic (by rwa [htoNat]) (by rwa [htoNat]) (by rwa [htoNat])

/-- Settles O45: the quads that HIDE wrote are read back, carried over to the later state's pixel memory, and EXTR's
checks hold there. -/
theorem hideExtractRoundTrip : Obligations.HideExtractRoundTrip := by
  intro e s t u hmax hloaded h herr hwidth hheight hconfig hagree
  obtain ⟨hcap, m, hwrite, rfl⟩ := execHide_success h herr
  have hlen : s.inBuf.length < 2 ^ 64 := State.lt_of_framedSize_le_cap hcap
  have hpixels : u.gridPixels = s.gridPixels := by rw [State.gridPixels, hwidth, hheight]; rfl
  have hchannels : u.gridChannels = s.gridChannels := congrArg (3 * ·) hpixels
  have hfits : 48 + 4 * s.inBuf.length ≤ u.gridChannels := by
    rw [State.framedSize_le_cap_iff] at hcap
    omega
  obtain ⟨hheader, hpayload⟩ := readQuads_of_writeQuads_frame hwrite
  have hheader' : readQuads u.pix 0 48 = _ :=
    (readQuads_congr fun k hk => hagree (0 + k) (by omega)).trans hheader
  have hpayload' : readQuads u.pix 48 (4 * s.inBuf.length) = _ :=
    (readQuads_congr fun k hk => hagree (48 + k) (by omega)).trans hpayload
  refine ⟨_, execExtr_of_frame (by rw [hpixels, hconfig]; exact hloaded.1) (isLSBMagic_magicFor e) hfits
    (by rw [hconfig]; exact hmax) hlen hheader' hpayload', u.extracted_err _ _ _,
    deserialize_flatMap_byteToQuads s.inBuf, ?_, rfl, ?_⟩
  · rw [State.extracted_len, BitVec.toNat_ofNat, Nat.mod_eq_of_lt hlen]
  · rw [State.extracted_encf, encOf_magicFor]

end Sys2Proof.Machine
end

section
/-! The statements about errors across the commands (60_exceptions.md R90, R95): when a command's operands have no
meaning, and what error entry leaves. -/

namespace Sys2Proof.Machine

/-! ### Error entry -/

@[simp] theorem State.err_errorEntry (s : State) (c : BitVec 4) : (s.errorEntry c.toNat).err = c := by
  rw [State.errorEntry_eq_setErr, State.err_setErr]

theorem EndsCommand.eq_errorEntry {s t : State} (h : EndsCommand s t) (herr : t.err ≠ 0#4) :
    t = s.errorEntry t.err.toNat := by
  rcases h with hsuccess | ⟨kind, -, rfl⟩
  · exact absurd hsuccess herr
  · rw [State.err_setErr, State.errorEntry_eq_setErr]

/-- Settles O36: `exec_endsCommand` covers the commands, and an illegal word raises its error directly. -/
theorem errorEntryIsPrecise : Obligations.ErrorEntryIsPrecise := by
  refine ⟨fun i s t h herr => (exec_endsCommand h).eq_errorEntry herr, fun w s t h herr => ?_⟩
  cases hdecode : decode w with
  | ok i =>
    rw [issueCommand_of_decode_ok hdecode] at h
    exact (exec_endsCommand h).eq_errorEntry herr
  | error e =>
    have ht : s.errorEntry (4#4).toNat = t :=
      Host.Outcome.next.inj ((issueCommand_of_decode_error hdecode s).symm.trans h)
    rw [← ht, State.err_errorEntry]

/-! ### ParamError -/

theorem ErrorKind.code_eq_five_iff {kind : ErrorKind} : kind.code = 5#4 ↔ kind = .paramError := by
  cases kind <;> decide

theorem Raises.err_ne_paramError {s t : State} {kind : ErrorKind} (h : Raises s t kind)
    (hkind : kind ≠ .paramError) : t.err ≠ 5#4 := by
  rw [h, State.err_setErr]
  exact mt ErrorKind.code_eq_five_iff.mp hkind

theorem State.setErr_successCode_err_ne_paramError (s : State) : (s.setErr successCode).err ≠ 5#4 := by
  rw [State.err_setErr]
  decide

theorem execSer_paramError {pb : Nat} {s t : State} (h : execSer pb s = .next t) (herr : t.err = 5#4) : pb = 0 := by
  rcases execSer_next h with ⟨hpb, -⟩ | ⟨-, -, hr⟩ | ⟨-, -, rfl⟩
  · exact hpb
  · exact absurd herr (hr.err_ne_paramError nofun)
  · exact absurd herr (State.setErr_successCode_err_ne_paramError _)

theorem execDes_err_ne_paramError {s t : State} (h : execDes s = .next t) : t.err ≠ 5#4 := by
  rcases execDes_next h with ⟨-, -, hr⟩ | ⟨-, -, hr⟩ | ⟨-, -, rfl⟩
  · exact hr.err_ne_paramError nofun
  · exact hr.err_ne_paramError nofun
  · exact State.setErr_successCode_err_ne_paramError _

theorem execPwr_paramError {s t : State} (h : execPwr s = .next t) (herr : t.err = 5#4) :
    s.gridPixels > s.config.maxPix ∨ s.q.length % 3 ≠ 0 := by
  rcases execPwr_next h with ⟨hgrid, -⟩ | ⟨-, hmod, -⟩ | ⟨-, -, -, hr⟩ | ⟨-, -, -, m, -, rfl⟩
  · exact .inl hgrid
  · exact .inr hmod
  · exact absurd herr (hr.err_ne_paramError nofun)
  · exact absurd herr (State.setErr_successCode_err_ne_paramError _)

theorem execPrd_paramError {s t : State} (h : execPrd s = .next t) (herr : t.err = 5#4) :
    s.gridPixels > s.config.maxPix := by
  rcases execPrd_next h with ⟨hgrid, -⟩ | ⟨-, -, hr⟩ | ⟨-, -, -, hr⟩ | ⟨-, -, -, quads, -, rfl⟩
  · exact hgrid
  · exact absurd herr (hr.err_ne_paramError nofun)
  · exact absurd herr (hr.err_ne_paramError nofun)
  · exact absurd herr (State.setErr_successCode_err_ne_paramError _)

theorem execHide_paramError {e : Bool} {s t : State} (h : execHide e s = .next t) (herr : t.err = 5#4) :
    s.gridPixels > s.config.maxPix := by
  rcases execHide_next h with ⟨hgrid, -⟩ | ⟨-, -, hr⟩ | ⟨-, -, m, -, rfl⟩
  · exact hgrid
  · exact absurd herr (hr.err_ne_paramError nofun)
  · exact absurd herr (State.setErr_successCode_err_ne_paramError _)

theorem extractPayload_err_ne_paramError {magic : Word} {len : DWord} {s t : State}
    (h : extractPayload magic len s = .next t) : t.err ≠ 5#4 := by
  rcases extractPayload_next h with ⟨-, hr⟩ | ⟨-, -, hr⟩ | ⟨-, -, -, hr⟩ | ⟨-, -, -, quads, -, rfl⟩
  · exact hr.err_ne_paramError nofun
  · exact hr.err_ne_paramError nofun
  · exact hr.err_ne_paramError nofun
  · exact State.setErr_successCode_err_ne_paramError _

theorem execExtr_paramError {s t : State} (h : execExtr s = .next t) (herr : t.err = 5#4) :
    s.gridPixels > s.config.maxPix := by
  rcases execExtr_next h with ⟨hgrid, -⟩ | ⟨-, -, hr⟩ | ⟨-, -, header, -, hp⟩
  · exact hgrid
  · exact absurd herr (hr.err_ne_paramError nofun)
  · exact absurd herr (extractPayload_err_ne_paramError hp)

/-- Both checks of PWR that precede its capacity check raise ParamError, so their order is not seen. -/
theorem execPwr_of_length_mod_three {s : State} (hmod : s.q.length % 3 ≠ 0) : execPwr s = raise .paramError s := by
  rw [execPwr, if_pos hmod, ite_self]

theorem raise_paramError_err (s : State) : ∃ t, raise .paramError s = .next t ∧ t.err = 5#4 :=
  ⟨_, raise_eq _ s, State.err_setErr s 5#4⟩

/-- Settles O34: forwards each command's listed cases leave only its ParamError checks, backwards each check raises it. -/
theorem paramErrorWhen : Obligations.ParamErrorWhen := by
  intro i s
  constructor
  · rintro ⟨t, h, herr⟩
    cases i with
    | ser pb => exact .inl (congrArg Instr.ser (execSer_paramError h herr))
    | des => exact absurd herr (execDes_err_ne_paramError h)
    | pwr => exact .inr ((execPwr_paramError h herr).imp (⟨.inl rfl, ·⟩) (⟨rfl, ·⟩))
    | prd => exact .inr (.inl ⟨by simp, execPrd_paramError h herr⟩)
    | hide e => exact .inr (.inl ⟨by cases e <;> simp, execHide_paramError h herr⟩)
    | extr => exact .inr (.inl ⟨by simp, execExtr_paramError h herr⟩)
  · rintro (rfl | ⟨hi, hgrid⟩ | ⟨rfl, hmod⟩)
    · exact raise_paramError_err s
    · have hgridUse : i.usesGrid = true := by rcases hi with rfl | rfl | rfl | rfl | rfl <;> rfl
      exact ⟨_, exec_of_gridPixels_gt hgridUse hgrid, s.err_errorEntry 5#4⟩
    · obtain ⟨t, ht, herr⟩ := raise_paramError_err s
      exact ⟨t, (execPwr_of_length_mod_three hmod).trans ht, herr⟩

end Sys2Proof.Machine
end

section
/-! The statement about the reset event (70_reset_and_hazards.md R100): what it leaves in every piece of state, and what
the computed registers read then. -/

namespace Sys2Proof.Machine

/-! ### The computed registers -/

theorem registerValue_cap (s : State) : registerValue 7 s = some s.cap := rfl

theorem registerValue_inLen {s : State} (h : s.inBuf.length < 2 ^ 64) : registerValue 8 s = some s.inBuf.length :=
  congrArg some (lengthRegister_toNat h)

theorem registerValue_qLen {s : State} (h : s.q.length < 2 ^ 64) : registerValue 9 s = some s.q.length :=
  congrArg some (lengthRegister_toNat h)

theorem registerValue_outLen {s : State} (h : s.out.length < 2 ^ 64) : registerValue 10 s = some s.out.length :=
  congrArg some (lengthRegister_toNat h)

/-! ### The reset event -/

theorem performAction_reset (s : State) : performAction .reset s = .next (resetEvent s) := rfl

@[simp] theorem resetEvent_inBuf (s : State) : (resetEvent s).inBuf = [] := rfl

@[simp] theorem resetEvent_q (s : State) : (resetEvent s).q = [] := rfl

@[simp] theorem resetEvent_out (s : State) : (resetEvent s).out = [] := rfl

@[simp] theorem resetEvent_width (s : State) : (resetEvent s).width = 0#32 := rfl

@[simp] theorem resetEvent_cap (s : State) : (resetEvent s).cap = 0 := by
  simp [State.cap, capacity]

/-- CAP, INLEN, QLEN and OUTLEN have no storage; they read 0 because the grid and the buffers are empty. -/
theorem registerValue_resetEvent_computed (s : State) :
    registerValue 7 (resetEvent s) = some 0 ∧ registerValue 8 (resetEvent s) = some 0 ∧
      registerValue 9 (resetEvent s) = some 0 ∧ registerValue 10 (resetEvent s) = some 0 := by
  refine ⟨?cap, ?inLen, ?qLen, ?outLen⟩
  case cap => rw [registerValue_cap, resetEvent_cap]
  case inLen => rw [registerValue_inLen (by simp), resetEvent_inBuf, List.length_nil]
  case qLen => rw [registerValue_qLen (by simp), resetEvent_q, List.length_nil]
  case outLen => rw [registerValue_outLen (by simp), resetEvent_out, List.length_nil]

/-- Settles O50: the stored fields are those of State.reset, whose PIX is the empty memory, and the computed registers
read 0 of them. -/
theorem resetEventState : Obligations.ResetEventState :=
  ⟨fun s => ⟨resetEvent s, performAction_reset s, rfl, resetEvent_width s, rfl, rfl, rfl, rfl,
      resetEvent_inBuf s, resetEvent_q s, resetEvent_out s, Memory.read_nil, registerValue_resetEvent_computed s⟩,
    rfl, rfl, rfl, rfl, rfl, rfl, rfl, rfl, rfl, Memory.read_nil⟩

end Sys2Proof.Machine
end

section
/-! The statements about command words and the step (30_encoding.md sections 1 to 4; 20_memory.md section 6): decoder and
encoder are inverse to each other, and a step runs the command that a CMD write issues. -/

namespace Sys2Proof

/-! ### Decoding a word that was encoded -/

/-- The four checks of R53 pass on these fields, and the command is the one they spell. -/
theorem decode_of_fields {w : Word} {op : Op} (hop : opOfCode (fieldOp w) = some op) (hres0 : fieldRes0 w = 0#3)
    (hres1 : fieldRes1 w = 0#16) (he : fieldE w = true → op = .hide) (hpb : fieldPB w ≠ 0#8 → op = .ser) :
    decode w = .ok (instrOfOp op (fieldE w) (fieldPB w).toNat) := by
  have hres : ¬(fieldRes1 w ≠ 0#16 ∨ fieldRes0 w ≠ 0#3) := by simp [hres0, hres1]
  have henc : ¬(fieldE w = true ∧ op ≠ .hide) := fun ⟨h, hne⟩ => hne (he h)
  have hpad : ¬(fieldPB w ≠ 0#8 ∧ op ≠ .ser) := fun ⟨h, hne⟩ => hne (hpb h)
  simp only [decode, hop, if_neg hres, if_neg henc, if_neg hpad]

theorem encodedFields (i : Instr) : Laws.EncodedFields.Statement i := by
  cases i with
  | ser pb => exact Laws.EncodedFields.ser pb
  | des => exact Laws.EncodedFields.des
  | pwr => exact Laws.EncodedFields.pwr
  | prd => exact Laws.EncodedFields.prd
  | hide e => exact Laws.EncodedFields.hide e
  | extr => exact Laws.EncodedFields.extr

/-- Settles O2: the fields of a well-formed command's word pass the decoder's checks and spell the command. -/
theorem decodeEncodeAgree : Obligations.DecodeEncodeAgree := by
  intro i hwf
  obtain ⟨op, hop, hres0, hres1, he, hpb, hinstr⟩ := encodedFields i hwf
  rw [decode_of_fields hop hres0 hres1 he hpb, hinstr]

/-! ### Encoding a command that was decoded -/

/-- SER's word in numbers (30_encoding.md R49, R52). -/
theorem encode_ser_toNat {pb : Nat} (h : pb < 256) : (encode (.ser pb)).toNat = 256 * pb + 1 := by
  have hdisjoint : 2 ^ 8 * pb + 1 = 2 ^ 8 * pb ||| 1 := Nat.two_pow_add_eq_or_of_lt (by decide) pb
  have hshift : (BitVec.ofNat 32 pb <<< 8).toNat = 2 ^ 8 * pb := by
    rw [BitVec.toNat_shiftLeft, BitVec.toNat_ofNat, Nat.shiftLeft_eq]
    omega
  rw [encode, BitVec.toNat_or, hshift, Nat.or_comm]
  exact hdisjoint.symm

/-- Every command's word in numbers: its OP, E in HIDE and PB in SER (30_encoding.md R49 to R52). -/
theorem encode_instrOfOp_toNat (op : Op) (e : Bool) {pb : Nat} (h : pb < 256) :
    (encode (instrOfOp op e pb)).toNat =
      op.code + (if e = true ∧ op = .hide then 16 else 0) + (if op = .ser then 256 * pb else 0) := by
  cases op with
  | ser => simp [instrOfOp, encode_ser_toNat h, Op.code, Nat.add_comm]
  | hide => cases e <;> rfl
  | des | pwr | prd | extr => simp [instrOfOp, encode, Op.code]

theorem wellFormed_instrOfOp (op : Op) (e : Bool) {pb : Nat} (h : pb < 256) : WellFormed (instrOfOp op e pb) := by
  cases op with
  | ser => exact decide_eq_true h
  | des | pwr | prd | hide | extr => rfl

/-- A legal word has no bits but its OP's, E in HIDE and PB in SER, which the encoder sets. -/
theorem LegalWord.encode_eq {w : Word} (h : LegalWord w) {op : Op} (hop : w.toNat % 16 = op.code) :
    encode (instrOfOp op (decide (w.toNat / 2 ^ 4 % 2 = 1)) (w.toNat / 2 ^ 8 % 256)) = w := by
  obtain ⟨-, -, hres1, hres0, henc, hpb⟩ := h
  apply BitVec.eq_of_toNat_eq
  simp only [encode_instrOfOp_toNat _ _ (Nat.mod_lt _ (show 0 < 256 by decide)), Op.eq_hide_iff, Op.eq_ser_iff, ← hop,
    decide_eq_true_eq]
  split_ifs <;> omega

/-- Settles O3: an accepted word is legal, so its command is the one its fields spell, and that command's word is it. -/
theorem encodeDecodeAgree : Obligations.EncodeDecodeAgree := by
  intro w i h
  have hlegal := LegalWord.of_decode h
  obtain ⟨op, hop⟩ := Op.exists_code_eq hlegal.op_pos hlegal.op_le
  obtain rfl : instrOfOp op _ _ = i := Except.ok.inj ((hlegal.decode_eq hop).symm.trans h)
  exact ⟨wellFormed_instrOfOp op _ (Nat.mod_lt _ (by decide)), hlegal.encode_eq hop⟩

/-- Settles O4: sixteen words, decoded one by one. -/
theorem specWordsDecode : Obligations.SpecWordsDecode := by
  unfold Obligations.SpecWordsDecode
  decide

end Sys2Proof

namespace Sys2Proof.Machine

/-! ### The step -/

theorem step_of_pending {s : State} {a : HostAction} {rest : List HostAction} (h : s.hostActions = a :: rest) :
    step s = performAction a (s.setActions rest) := by
  simp only [step, nextEvent, h]

theorem step_of_idle {s : State} (h : s.hostActions = []) : step s = .next s := by
  simp only [step, nextEvent, h]

/-- A CMD write that is the oldest pending action issues its word (10_state.md R18). -/
theorem step_of_pending_cmd {s : State} {w : Word} {rest : List HostAction}
    (h : s.hostActions = .writeReg 0 w.toNat :: rest) : step s = issueCommand w (s.setActions rest) := by
  rw [step_of_pending h, performAction_writeReg_cmd]

/-- Settles O6: the CMD write issues its word, and decoding it decides between the command and IllegalCommand. -/
theorem stepRunsDecodedCommand : Obligations.StepRunsDecodedCommand := fun _ _ rest h =>
  ⟨fun _ hi => (step_of_pending_cmd h).trans (issueCommand_of_decode_ok hi (State.setActions _ rest)),
    fun _ he => (step_of_pending_cmd h).trans (issueCommand_of_decode_error he (State.setActions _ rest))⟩

/-- Settles O7: the two cases of the list of pending actions. -/
theorem stepPerformsOldestAction : Obligations.StepPerformsOldestAction :=
  ⟨fun _ _ _ => step_of_pending, fun _ => step_of_idle⟩

/-- Settles O8: the placed write holds the whole word, and taking it off the list restores the state. -/
theorem fetchWordRunsNext : Obligations.FetchWordRunsNext := by
  intro s w
  have hplaced : (s.withFetchWord 32 w.toNat).hostActions = .writeReg 0 w.toNat :: s.hostActions := by
    simp [State.withFetchWord, commandWrite, Nat.mod_eq_of_lt w.isLt]
  exact step_of_pending_cmd hplaced

end Sys2Proof.Machine
end

section
/-! What a command can leave, said once for all six, and the statements that follow from it: the error codes
(60_exceptions.md R85), the frames, and the invariant. -/

namespace Sys2Proof.Machine

/-! ### What a command leaves -/

/-- The commands that raise an error of this kind (60_exceptions.md R85). -/
def ErrorKind.RaisedBy (s : State) (i : Instr) : ErrorKind → Prop
  | .capacityExceeded => i = .pwr ∨ i = .hide true ∨ i = .hide false
  | .noHiddenData => i = .extr
  | .truncatedFrame => i = .prd ∨ i = .extr ∨ (i = .des ∧ s.config.strictGroups = true)
  | .illegalCommand => False
  | .paramError => i ≠ .des
  | .overflow => i = .des ∨ i = .prd ∨ i = .extr ∨ ∃ pb, i = .ser pb

/-- Everything a command can leave: the state of an error that it raises, or its own result, with the checks and passes
that bound the result. -/
inductive CommandLeaves (s : State) : Instr → State → Prop where
  | error {i : Instr} (kind : ErrorKind) : kind.RaisedBy s i → CommandLeaves s i (s.setErr kind.code)
  | ser {pb : Nat} : pb ≠ 0 → paddedLength (4 * s.inBuf.length) pb ≤ s.config.maxQ →
      CommandLeaves s (.ser pb) ((s.setQ (serialize s.inBuf pb)).setErr successCode)
  | des : s.q.length / 4 ≤ s.config.maxB →
      CommandLeaves s .des ((s.setOut (deserialize s.q)).setErr successCode)
  | pwr {m : Memory} : s.gridPixels ≤ s.config.maxPix → s.q.length ≤ s.gridChannels →
      writeQuads s.pix 0 s.q = some m → CommandLeaves s .pwr ((s.setPix m).setErr successCode)
  | prd {quads : List Quad} : s.qcnt.toNat ≤ s.config.maxQ → readQuads s.pix 0 s.qcnt.toNat = some quads →
      CommandLeaves s .prd ((s.setQ quads).setErr successCode)
  | hide {e : Bool} {m : Memory} : s.gridPixels ≤ s.config.maxPix → framedSize s.inBuf.length ≤ s.cap →
      writeQuads s.pix 0 (serialize (buildFrameLSB (magicFor e) s.inBuf) 3) = some m →
      CommandLeaves s (.hide e) (s.hidden e m)
  | extr {magic : Word} {len : DWord} {quads : List Quad} : isLSBMagic magic = true → len.toNat ≤ s.config.maxB →
      readQuads s.pix 48 (4 * len.toNat) = some quads → CommandLeaves s .extr (s.extracted magic len quads)

theorem extractPayload_leaves {magic : Word} {len : DWord} {s t : State}
    (h : extractPayload magic len s = .next t) : CommandLeaves s .extr t := by
  rcases extractPayload_next h with ⟨-, rfl⟩ | ⟨-, -, rfl⟩ | ⟨-, -, -, rfl⟩ | ⟨hmagic, -, hlen, quads, hread, rfl⟩
  · exact .error .noHiddenData rfl
  · exact .error .truncatedFrame (.inr (.inl rfl))
  · exact .error .overflow (.inr (.inr (.inl rfl)))
  · exact .extr hmagic hlen hread

/-- A command that answers a next state leaves what one of the constructors says. -/
theorem exec_leaves {i : Instr} {s t : State} (h : exec i s = .next t) : CommandLeaves s i t := by
  cases i with
  | ser pb =>
    rcases execSer_next h with ⟨-, rfl⟩ | ⟨-, -, rfl⟩ | ⟨hpb, hfit, rfl⟩
    · exact .error .paramError nofun
    · exact .error .overflow (.inr (.inr (.inr ⟨pb, rfl⟩)))
    · exact .ser hpb hfit
  | des =>
    rcases execDes_next h with ⟨hstrict, -, rfl⟩ | ⟨-, -, rfl⟩ | ⟨-, hfit, rfl⟩
    · exact .error .truncatedFrame (.inr (.inr ⟨rfl, hstrict⟩))
    · exact .error .overflow (.inl rfl)
    · exact .des hfit
  | pwr =>
    rcases execPwr_next h with ⟨-, rfl⟩ | ⟨-, -, rfl⟩ | ⟨-, -, -, rfl⟩ | ⟨hgrid, -, hfit, m, hwrite, rfl⟩
    · exact .error .paramError nofun
    · exact .error .paramError nofun
    · exact .error .capacityExceeded (.inl rfl)
    · exact .pwr hgrid hfit hwrite
  | prd =>
    rcases execPrd_next h with ⟨-, rfl⟩ | ⟨-, -, rfl⟩ | ⟨-, -, -, rfl⟩ | ⟨-, -, hfit, quads, hread, rfl⟩
    · exact .error .paramError nofun
    · exact .error .truncatedFrame (.inl rfl)
    · exact .error .overflow (.inr (.inl rfl))
    · exact .prd hfit hread
  | hide e =>
    rcases execHide_next h with ⟨-, rfl⟩ | ⟨-, -, rfl⟩ | ⟨hgrid, hfit, m, hwrite, rfl⟩
    · exact .error .paramError nofun
    · exact .error .capacityExceeded (by cases e <;> simp [ErrorKind.RaisedBy])
    · exact .hide hgrid hfit hwrite
  | extr =>
    rcases execExtr_next h with ⟨-, rfl⟩ | ⟨-, -, rfl⟩ | ⟨-, -, header, -, hpayload⟩
    · exact .error .paramError nofun
    · exact .error .noHiddenData rfl
    · exact extractPayload_leaves hpayload

/-- Settles O35: an error's code with the commands that raise it, and ERR = 0 after each result. -/
theorem errorCodesByCommand : Obligations.ErrorCodesByCommand := by
  intro i s t h
  cases exec_leaves h with
  | error kind hkind =>
    rw [State.err_setErr]
    cases kind with
    | capacityExceeded => exact .inr (.inl ⟨rfl, hkind⟩)
    | noHiddenData => exact .inr (.inr (.inl ⟨rfl, hkind⟩))
    | truncatedFrame => exact .inr (.inr (.inr (.inl ⟨rfl, hkind⟩)))
    | illegalCommand => exact hkind.elim
    | paramError => exact .inr (.inr (.inr (.inr (.inl ⟨rfl, hkind⟩))))
    | overflow => exact .inr (.inr (.inr (.inr (.inr ⟨rfl, hkind⟩))))
  | ser | des | pwr | prd | hide | extr => exact .inl (State.err_setErr _ successCode)

/-! ### What every command keeps -/

/-- What no command writes: the grid, QCNT, IN, STATUS bits 31:5, the configuration and the host's side. -/
structure CommandKeeps (s t : State) : Prop where
  width : t.width = s.width
  height : t.height = s.height
  qcnt : t.qcnt = s.qcnt
  inBuf : t.inBuf = s.inBuf
  config : t.config = s.config
  hostActions : t.hostActions = s.hostActions
  hostReplies : t.hostReplies = s.hostReplies
  reserved : t.status.toNat / 32 = s.status.toNat / 32

theorem CommandKeeps.setErr {s t : State} (h : CommandKeeps s t) (c : BitVec 4) : CommandKeeps s (t.setErr c) := by
  refine { h with reserved := ?_ }
  have hc := c.isLt
  rw [State.setErr_status_toNat, ← h.reserved]
  omega

theorem CommandKeeps.setEncf {s t : State} (h : CommandKeeps s t) (e : Bool) : CommandKeeps s (t.setEncf e) := by
  refine { h with reserved := ?_ }
  rw [State.setEncf_status, statusWithEncf_toNat, ← h.reserved]
  split <;> omega

theorem CommandLeaves.keeps {i : Instr} {s t : State} (h : CommandLeaves s i t) : CommandKeeps s t := by
  cases h with
  | error | ser | des | pwr | prd =>
    refine .setErr ?_ _
    constructor <;> rfl
  | hide | extr =>
    refine .setErr (.setEncf ?_ _) _
    constructor <;> rfl

/-- A result that ends without writing ENCF changes STATUS bits 3:0 alone. -/
theorem State.setErr_status_div_sixteen (s : State) (c : BitVec 4) :
    (s.setErr c).status.toNat / 16 = s.status.toNat / 16 := by
  have hc := c.isLt
  rw [State.setErr_status_toNat]
  omega

/-- Settles O40: what every command keeps, and the two results that write Q alone. -/
theorem frameOfQuadWriters : Obligations.FrameOfQuadWriters := by
  intro i s t hi h
  have hleaves := exec_leaves h
  obtain ⟨hwidth, hheight, hqcnt, hinBuf, hconfig, hactions, hreplies, -⟩ := hleaves.keeps
  have hown : t.magic = s.magic ∧ t.len = s.len ∧ t.out = s.out ∧ t.status.toNat / 16 = s.status.toNat / 16 ∧
      t.pix = s.pix := by
    cases hleaves with
    | error | ser | prd => exact ⟨rfl, rfl, rfl, State.setErr_status_div_sixteen _ _, rfl⟩
    | des | pwr | hide | extr => simp at hi
  obtain ⟨hmagic, hlen, hout, hstatus, hpix⟩ := hown
  exact ⟨hwidth, hheight, hqcnt, hmagic, hlen, hinBuf, hout, hconfig, hactions, hreplies, hstatus,
    fun a => by rw [hpix]⟩

/-- Settles O41: what every command keeps, and the two results that write OUT. -/
theorem frameOfByteWriters : Obligations.FrameOfByteWriters := by
  intro i s t hi h
  have hleaves := exec_leaves h
  obtain ⟨hwidth, hheight, hqcnt, hinBuf, hconfig, hactions, hreplies, hreserved⟩ := hleaves.keeps
  have hown : t.q = s.q ∧ (i = .des → KeepsResultRegisters s t) ∧ t.pix = s.pix := by
    cases hleaves with
    | error | des => exact ⟨rfl, fun _ => .setErr ⟨rfl, rfl, rfl⟩ _, rfl⟩
    | extr => exact ⟨rfl, nofun, rfl⟩
    | ser | pwr | prd | hide => simp at hi
  obtain ⟨hq, hresult, hpix⟩ := hown
  exact ⟨hwidth, hheight, hqcnt, hinBuf, hq, hconfig, hactions, hreplies, hreserved, hresult, fun a => by rw [hpix]⟩

/-- Settles O42: what every command keeps, and the writing passes of PWR and HIDE. -/
theorem frameOfPixelWriters : Obligations.FrameOfPixelWriters := by
  intro i s t hi h
  have hleaves := exec_leaves h
  obtain ⟨hwidth, hheight, hqcnt, hinBuf, hconfig, hactions, hreplies, hreserved⟩ := hleaves.keeps
  have hown : t.q = s.q ∧ t.out = s.out ∧
      (i = .pwr → t.magic = s.magic ∧ t.len = s.len ∧ t.encf = s.encf ∧
        ∀ a, s.q.length ≤ a → Memory.read t.pix a = Memory.read s.pix a) ∧
      ∀ e, i = .hide e → ∀ a, (serialize (buildFrameLSB (magicFor e) s.inBuf) 3).length ≤ a →
        Memory.read t.pix a = Memory.read s.pix a := by
    cases hleaves with
    | error kind => exact ⟨rfl, rfl, fun _ => ⟨rfl, rfl, State.encf_setErr s _, fun _ _ => rfl⟩, fun _ _ _ _ => rfl⟩
    | pwr _ _ hwrite =>
      refine ⟨rfl, rfl, fun _ => ⟨rfl, rfl, State.encf_setErr _ _, fun a ha => ?_⟩, nofun⟩
      exact (writeQuads_some hwrite).1 a (.inr (by omega))
    | hide _ _ hwrite =>
      refine ⟨rfl, rfl, nofun, fun e he a ha => ?_⟩
      cases he
      exact (writeQuads_some hwrite).1 a (.inr (by omega))
    | ser | des | prd | extr => simp at hi
  obtain ⟨hq, hout, hpwr, hhide⟩ := hown
  exact ⟨hwidth, hheight, hqcnt, hinBuf, hq, hout, hconfig, hactions, hreplies, hreserved, hpwr, hhide⟩

/-! ### The configuration -/

theorem performAction_config {a : HostAction} {s t : State} (h : performAction a s = .next t) :
    t.config = s.config := by
  cases performAction_next h with
  | command _ hcmd =>
    rcases issueCommand_next hcmd with ⟨-, -, rfl⟩ | ⟨i, -, hexec⟩
    · rfl
    · exact (exec_leaves hexec).keeps.config
  | width | height | qcnt | register | loadIN | loadQ | readIN | readQ | readOUT | writePix | readPix | reset => rfl

/-- Settles O49: no host action writes the configuration, and the reset event is one that also keeps the host's side. -/
theorem configurationNeverChanges : Obligations.ConfigurationNeverChanges := by
  refine ⟨fun s t h => ?_, fun s t h => ?_⟩
  · rcases step_next h with ⟨-, rfl⟩ | ⟨a, rest, -, haction⟩
    · rfl
    · exact performAction_config (s := s.setActions rest) haction
  · cases performAction_next h with
    | reset => exact ⟨rfl, rfl, rfl⟩

/-! ### The invariant, one rule per update of the state -/

theorem State.Inv.inBuf_fits {s : State} (h : s.Inv) : s.inBuf.length ≤ s.config.maxB := by
  obtain ⟨-, -, -, ⟨hin, -, -⟩, -⟩ := h
  exact hin

theorem State.Inv.pixWf {s : State} (h : s.Inv) : s.pixWf := by
  obtain ⟨-, -, -, -, hpix, -⟩ := h
  exact hpix

theorem State.Inv.setErr {s : State} (h : s.Inv) {c : BitVec 4} (hc : c.toNat ≤ 6) : (s.setErr c).Inv := by
  obtain ⟨hconfig, hreserved, -, hbuffers, hpix, ⟨hmagic, hencf⟩, hlen⟩ := h
  refine ⟨hconfig, ?_, ?_, hbuffers, hpix, ⟨hmagic, ?_⟩, hlen⟩
  · have hlt := c.isLt
    unfold State.statusReservedZero at hreserved ⊢
    rw [State.setErr_status_toNat]
    omega
  · rwa [State.errLegal, State.err_setErr]
  · rwa [State.encf_setErr]

theorem State.Inv.setErr_successCode {s : State} (h : s.Inv) : (s.setErr successCode).Inv := h.setErr (by decide)

theorem State.Inv.setIn {s : State} (h : s.Inv) {bytes : List Byte} (hfit : bytes.length ≤ s.config.maxB) :
    (s.setIn bytes).Inv := by
  obtain ⟨hconfig, hreserved, herr, ⟨-, hq, hout⟩, hrest⟩ := h
  exact ⟨hconfig, hreserved, herr, ⟨hfit, hq, hout⟩, hrest⟩

theorem State.Inv.setQ {s : State} (h : s.Inv) {quads : List Quad} (hfit : quads.length ≤ s.config.maxQ) :
    (s.setQ quads).Inv := by
  obtain ⟨hconfig, hreserved, herr, ⟨hin, -, hout⟩, hrest⟩ := h
  exact ⟨hconfig, hreserved, herr, ⟨hin, hfit, hout⟩, hrest⟩

theorem State.Inv.setOut {s : State} (h : s.Inv) {bytes : List Byte} (hfit : bytes.length ≤ s.config.maxB) :
    (s.setOut bytes).Inv := by
  obtain ⟨hconfig, hreserved, herr, ⟨hin, hq, -⟩, hrest⟩ := h
  exact ⟨hconfig, hreserved, herr, ⟨hin, hq, hfit⟩, hrest⟩

theorem State.Inv.setPix {s : State} (h : s.Inv) {m : Memory} (hwf : Memory.wf m)
    (hbelow : Memory.below m (3 * s.config.maxPix)) : (s.setPix m).Inv := by
  obtain ⟨hconfig, hreserved, herr, hbuffers, -, hrest⟩ := h
  exact ⟨hconfig, hreserved, herr, hbuffers, ⟨hwf, hbelow⟩, hrest⟩

/-- MAGIC, LEN and ENCF keep the invariant only when they are written together (10_state.md R19, R22). -/
theorem State.Inv.setResult {s : State} (h : s.Inv) {magic : Word} {len : DWord} (hmagic : isLSBMagic magic = true)
    (hlen : len.toNat ≤ s.config.maxB) : ((s.setFrame magic len).setEncf (encOf magic)).Inv := by
  obtain ⟨hconfig, hreserved, herr, hbuffers, hpix, -, -⟩ := h
  refine ⟨hconfig, ?_, ?_, hbuffers, hpix, ⟨.inr ((isLSBMagic_iff magic).mp hmagic), ?_⟩, hlen⟩
  · unfold State.statusReservedZero at hreserved ⊢
    rw [State.setEncf_status, State.setFrame_status, statusWithEncf_toNat]
    split <;> omega
  · rwa [State.errLegal, State.err_setEncf]
  · rw [State.encf_setEncf]
    exact encOf_iff magic

/-- A writing pass within the grid keeps the invariant. -/
theorem State.Inv.setPix_of_writeQuads {s : State} (h : s.Inv) {quads : List Quad} {m : Memory}
    (hgrid : s.gridPixels ≤ s.config.maxPix) (hfit : quads.length ≤ s.gridChannels)
    (hwrite : writeQuads s.pix 0 quads = some m) : (s.setPix m).Inv := by
  obtain ⟨hwf, hbelow⟩ := h.pixWf
  have hchannels : s.gridChannels = 3 * s.gridPixels := rfl
  exact h.setPix (writeQuads_wf hwrite hwf) (writeQuads_below hwrite hbelow (by omega))

theorem ErrorKind.code_le_six (kind : ErrorKind) : kind.code.toNat ≤ 6 := by
  cases kind <;> decide

/-- The reset event meets the invariant whatever the (legal) configuration. -/
theorem resetEvent_inv {s : State} (hconfig : s.config.wf) : (resetEvent s).Inv :=
  have hreserved : State.reset.statusReservedZero := by decide
  have herr : State.reset.errLegal := by decide
  have hencf : State.reset.encf = true ↔ State.reset.magic = 0x1337C0DE#32 := by decide
  ⟨hconfig, hreserved, herr, ⟨Nat.zero_le _, Nat.zero_le _, Nat.zero_le _⟩, ⟨.nil, nofun⟩,
    ⟨.inl ⟨rfl, rfl⟩, hencf⟩, Nat.zero_le _⟩

/-! ### Every step keeps the invariant -/

theorem CommandLeaves.inv {i : Instr} {s t : State} (h : CommandLeaves s i t) (hs : s.Inv) : t.Inv := by
  cases h with
  | error kind => exact hs.setErr kind.code_le_six
  | ser hpb hfit =>
    refine (hs.setQ ?_).setErr_successCode
    rwa [serialize_length _ (Nat.one_le_iff_ne_zero.mpr hpb)]
  | des hfit =>
    refine (hs.setOut ?_).setErr_successCode
    rwa [deserialize_length]
  | pwr hgrid hfit hwrite => exact (hs.setPix_of_writeQuads hgrid hfit hwrite).setErr_successCode
  | prd hfit hread =>
    refine (hs.setQ ?_).setErr_successCode
    rwa [(readQuads_some hread).1]
  | @hide e m hgrid hfit hwrite =>
    have hstored : (s.setPix m).Inv := by
      refine hs.setPix_of_writeQuads hgrid ?_ hwrite
      rw [serialize_frame_length]
      exact State.hiddenQuads_le_gridChannels hfit
    have hlen : (BitVec.ofNat 64 s.inBuf.length).toNat ≤ s.config.maxB :=
      (Nat.mod_le _ _).trans hs.inBuf_fits
    have hresult := hstored.setResult (isLSBMagic_magicFor e) hlen
    rw [encOf_magicFor] at hresult
    exact hresult.setErr_successCode
  | @extr _ _ quads hmagic hlen hread =>
    have hfit : (deserialize quads).length ≤ s.config.maxB := by
      rw [deserialize_length, (readQuads_some hread).1]
      omega
    exact ((hs.setOut hfit).setResult hmagic hlen).setErr_successCode

theorem performAction_inv {a : HostAction} {s t : State} (hs : s.Inv) (h : performAction a s = .next t) : t.Inv := by
  cases performAction_next h with
  | command _ hcmd =>
    rcases issueCommand_next hcmd with ⟨-, -, rfl⟩ | ⟨i, -, hexec⟩
    · exact hs.setErr (ErrorKind.code_le_six _)
    · exact (exec_leaves hexec).inv hs
  | loadIN hfit => exact hs.setIn hfit
  | loadQ hfit => exact hs.setQ hfit
  | writePix hp =>
    obtain ⟨hwf, hbelow⟩ := hs.pixWf
    exact hs.setPix (Memory.write_wf _ _ hwf) (Memory.write_below _ hbelow hp)
  | reset =>
    obtain ⟨hconfig, -⟩ := hs
    exact resetEvent_inv hconfig
  | width | height | qcnt | register | readIN | readQ | readOUT | readPix => exact hs

/-- Settles O47: taking an action off the host's list touches nothing the invariant speaks of, and performing it keeps
the invariant. -/
theorem stepKeepsInvariant : Obligations.StepKeepsInvariant := by
  intro s t hs h
  rcases step_next h with ⟨-, rfl⟩ | ⟨a, rest, -, haction⟩
  · exact hs
  · exact performAction_inv (s := s.setActions rest) hs haction

/-- Settles O48: State.reset is what the reset event leaves of it, with a configuration that meets R6. -/
theorem resetMeetsInvariant : Obligations.ResetMeetsInvariant :=
  resetEvent_inv (s := State.reset) (by decide)

end Sys2Proof.Machine
end

section
/-! The statements about single commands (40_symbol_codec.md sections 3 and 4; 42_lsb_embedder.md sections 3 to 6): the
errors of each in the order of its checks, the fault UnwrittenPixel, and what each leaves when it completes. -/

namespace Sys2Proof.Machine

/-! ### Errors, first failing check first -/

/-- An outcome that raises an error is the error entry of its code (60_exceptions.md R95). -/
theorem eq_errorEntry_of_raise {o : Out} {kind : ErrorKind} {s : State} (h : o = raise kind s) :
    o = .next (s.errorEntry kind.code.toNat) := by
  rw [h, raise_eq, State.errorEntry_eq_setErr]

/-- Settles O23: the two checks of SER in their order. -/
theorem serErrors : Obligations.SerErrors := fun _ _ =>
  ⟨fun hpb => eq_errorEntry_of_raise (kind := .paramError) (if_pos hpb),
    fun hpb hover => eq_errorEntry_of_raise (kind := .overflow) ((if_neg hpb).trans (if_pos hover))⟩

/-- DES goes past its check on groups where STRICT_GROUPS is off or the groups are whole (40_symbol_codec.md R67). -/
theorem groupsAccepted_iff (s : State) : (s.config.strictGroups = false ∨ s.q.length % 4 = 0) ↔
    ¬(s.config.strictGroups = true ∧ s.q.length % 4 ≠ 0) := by
  rw [not_and_or, Bool.not_eq_true, not_not]

/-- Settles O25: the two checks of DES in their order. -/
theorem desErrors : Obligations.DesErrors := fun s =>
  ⟨fun hstrict hgroups => eq_errorEntry_of_raise (kind := .truncatedFrame) (if_pos ⟨hstrict, hgroups⟩),
    fun haccept hover => eq_errorEntry_of_raise (kind := .overflow)
      ((if_neg ((groupsAccepted_iff s).mp haccept)).trans (if_pos hover))⟩

/-- Settles O27: the three checks of PWR in their order. -/
theorem pwrErrors : Obligations.PwrErrors := fun _ =>
  ⟨exec_of_gridPixels_gt rfl,
    fun _ hmod => eq_errorEntry_of_raise (kind := .paramError) (execPwr_of_length_mod_three hmod),
    fun hgrid hmod hover => eq_errorEntry_of_raise (kind := .capacityExceeded)
      ((if_neg hgrid.not_gt).trans ((if_neg (not_not.mpr hmod)).trans (if_pos hover)))⟩

/-- Settles O29: the three checks of PRD in their order. -/
theorem prdErrors : Obligations.PrdErrors := fun _ =>
  ⟨exec_of_gridPixels_gt rfl,
    fun hgrid htrunc => eq_errorEntry_of_raise (kind := .truncatedFrame)
      ((if_neg hgrid.not_gt).trans (if_pos htrunc)),
    fun hgrid hfit hover => eq_errorEntry_of_raise (kind := .overflow)
      ((if_neg hgrid.not_gt).trans ((if_neg hfit.not_gt).trans (if_pos hover)))⟩

/-- Settles O31: the two checks of HIDE in their order. -/
theorem hideErrors : Obligations.HideErrors := fun _ _ =>
  ⟨exec_of_gridPixels_gt rfl,
    fun hgrid hcap => eq_errorEntry_of_raise (kind := .capacityExceeded) (execHide_of_cap_lt hgrid hcap)⟩

/-- EXTR on a carrier that holds a header goes on with the header's two fields (42_lsb_embedder.md R81). -/
theorem execExtr_of_headerIs {s : State} {magic : Word} {len : DWord} (hgrid : s.gridPixels ≤ s.config.maxPix)
    (hchannels : 48 ≤ s.gridChannels) (hheader : s.headerIs magic len) :
    execExtr s = extractPayload magic len s := by
  obtain ⟨header, hread, hparse⟩ := hheader.read
  rw [execExtr_of_readQuads hgrid hchannels hread, hparse]

/-- Settles O33: the checks before the header, and the checks on its two fields, in their order. -/
theorem extrErrors : Obligations.ExtrErrors := by
  intro s
  refine ⟨exec_of_gridPixels_gt rfl, fun hgrid hchannels => eq_errorEntry_of_raise (kind := .noHiddenData)
    ((if_neg hgrid.not_gt).trans (if_pos hchannels)), fun magic len hgrid hchannels hheader => ?_⟩
  have hexec : exec .extr s = extractPayload magic len s := execExtr_of_headerIs hgrid hchannels hheader
  have hlsb (h : magic = 0xDEADC0DE#32 ∨ magic = 0x1337C0DE#32) : ¬ isLSBMagic magic = false := by
    rwa [Bool.not_eq_false, isLSBMagic_iff]
  rw [hexec]
  refine ⟨fun hplain hencrypted => ?_, fun hmagic htrunc => ?_, fun hmagic hfits hover => ?_⟩
  · have hnot : isLSBMagic magic = false := by
      rw [← Bool.not_eq_true, isLSBMagic_iff, not_or]
      exact ⟨hplain, hencrypted⟩
    exact eq_errorEntry_of_raise (kind := .noHiddenData) (if_pos hnot)
  · exact eq_errorEntry_of_raise (kind := .truncatedFrame) ((if_neg (hlsb hmagic)).trans (if_pos htrunc))
  · exact eq_errorEntry_of_raise (kind := .overflow)
      ((if_neg (hlsb hmagic)).trans ((if_neg hfits.not_gt).trans (if_pos hover)))

/-! ### The passes on bytes that hold values -/

theorem State.pixHeld_iff_writeQuads (s : State) (quads : List Quad) :
    s.pixHeld quads.length ↔ (writeQuads s.pix 0 quads).isSome = true := by
  simp only [writeQuads_isSome, Nat.zero_add]

theorem State.pixHeld_iff_readQuads (s : State) (n : Nat) :
    s.pixHeld n ↔ (readQuads s.pix 0 n).isSome = true := by
  simp only [readQuads_isSome, Nat.zero_add]

/-- Where the bytes below `start` hold values, those of the next pass do exactly when it completes. -/
theorem State.pixHeld_add_iff {s : State} {start : Nat} (h : s.pixHeld start) (n : Nat) :
    s.pixHeld (start + n) ↔ (readQuads s.pix start n).isSome = true := by
  rw [readQuads_isSome]
  constructor
  · exact fun hheld k hk => hheld (start + k) (by omega)
  · intro hrest k hk
    rcases Nat.lt_or_ge k start with hlt | hge
    · exact h k hlt
    · obtain ⟨j, rfl⟩ := Nat.exists_eq_add_of_le hge
      exact hrest j (by omega)

theorem State.pixHeld.exists_writeQuads {s : State} {quads : List Quad} (h : s.pixHeld quads.length) :
    ∃ m, writeQuads s.pix 0 quads = some m :=
  Option.isSome_iff_exists.mp ((s.pixHeld_iff_writeQuads quads).mp h)

theorem State.pixHeld.exists_readQuads {s : State} {n : Nat} (h : s.pixHeld n) :
    ∃ quads, readQuads s.pix 0 n = some quads :=
  Option.isSome_iff_exists.mp ((s.pixHeld_iff_readQuads n).mp h)

theorem State.headerIs.pixHeld {s : State} {magic : Word} {len : DWord} (h : s.headerIs magic len) : s.pixHeld 48 := by
  obtain ⟨header, hread, -⟩ := h.read
  rw [State.pixHeld_iff_readQuads, hread]
  rfl

/-! ### The fault UnwrittenPixel -/

/-- A check that fails raises its error, so behind it only the rest of the command can fault. -/
theorem check_eq_fault_iff {p : Prop} [Decidable p] {kind : ErrorKind} {s : State} {o : Out} {f : Fault} :
    (if p then raise kind s else o) = .fault f ↔ ¬p ∧ o = .fault f := by
  by_cases h : p <;> simp [h, raise_eq]

@[simp] theorem succeed_ne_fault (s : State) (f : Fault) : succeed s ≠ .fault f := nofun

theorem execSer_ne_fault (pb : Nat) (s : State) (f : Fault) : execSer pb s ≠ .fault f := by
  simp [execSer, check_eq_fault_iff]

theorem execDes_ne_fault (s : State) (f : Fault) : execDes s ≠ .fault f := by
  simp [execDes, check_eq_fault_iff]

theorem execPwr_fault_iff (s : State) : execPwr s = .fault .unwrittenPixel ↔
    s.gridPixels ≤ s.config.maxPix ∧ s.q.length % 3 = 0 ∧ s.q.length ≤ s.gridChannels ∧
      ¬ s.pixHeld s.q.length := by
  rw [execPwr, check_eq_fault_iff, check_eq_fault_iff, check_eq_fault_iff, Nat.not_lt, not_not, Nat.not_lt,
    State.pixHeld_iff_writeQuads]
  cases writeQuads s.pix 0 s.q <;> simp

theorem execPrd_fault_iff (s : State) : execPrd s = .fault .unwrittenPixel ↔
    s.gridPixels ≤ s.config.maxPix ∧ s.qcnt.toNat ≤ s.gridChannels ∧ s.qcnt.toNat ≤ s.config.maxQ ∧
      ¬ s.pixHeld s.qcnt.toNat := by
  rw [execPrd, check_eq_fault_iff, check_eq_fault_iff, check_eq_fault_iff, Nat.not_lt, Nat.not_lt, Nat.not_lt,
    State.pixHeld_iff_readQuads]
  cases readQuads s.pix 0 s.qcnt.toNat <;> simp

theorem execHide_fault_iff (e : Bool) (s : State) : execHide e s = .fault .unwrittenPixel ↔
    s.gridPixels ≤ s.config.maxPix ∧ framedSize s.inBuf.length ≤ s.cap ∧
      ¬ s.pixHeld (hiddenQuads s.inBuf.length) := by
  rw [execHide, check_eq_fault_iff, check_eq_fault_iff, Nat.not_lt, Nat.not_lt,
    ← serialize_frame_length (magicFor e), State.pixHeld_iff_writeQuads]
  cases writeQuads s.pix 0 (serialize (buildFrameLSB (magicFor e) s.inBuf) 3) <;> simp

theorem extractPayload_fault_iff {s : State} (hheld : s.pixHeld 48) (magic : Word) (len : DWord) :
    extractPayload magic len s = .fault .unwrittenPixel ↔
      (magic = 0xDEADC0DE#32 ∨ magic = 0x1337C0DE#32) ∧ 48 + 4 * len.toNat ≤ s.gridChannels ∧
        len.toNat ≤ s.config.maxB ∧ ¬ s.pixHeld (48 + 4 * len.toNat) := by
  have hlsb : (magic = 0xDEADC0DE#32 ∨ magic = 0x1337C0DE#32) ↔ isLSBMagic magic = true := (isLSBMagic_iff magic).symm
  rw [extractPayload, check_eq_fault_iff, check_eq_fault_iff, check_eq_fault_iff, Bool.not_eq_false, Nat.not_lt,
    Nat.not_lt, hlsb, State.pixHeld_add_iff hheld]
  cases readQuads s.pix 48 (4 * len.toNat) <;> simp

theorem execExtr_checks_of_fault {s : State} {f : Fault} (h : execExtr s = .fault f) :
    s.gridPixels ≤ s.config.maxPix ∧ 48 ≤ s.gridChannels := by
  rw [execExtr, check_eq_fault_iff, check_eq_fault_iff, Nat.not_lt, Nat.not_lt] at h
  obtain ⟨hgrid, hchannels, -⟩ := h
  exact ⟨hgrid, hchannels⟩

theorem execExtr_fault_iff (s : State) : execExtr s = .fault .unwrittenPixel ↔
    s.gridPixels ≤ s.config.maxPix ∧ 48 ≤ s.gridChannels ∧
      (¬ s.pixHeld 48 ∨ ∃ magic len, s.headerIs magic len ∧ (magic = 0xDEADC0DE#32 ∨ magic = 0x1337C0DE#32) ∧
        48 + 4 * len.toNat ≤ s.gridChannels ∧ len.toNat ≤ s.config.maxB ∧
          ¬ s.pixHeld (48 + 4 * len.toNat)) := by
  constructor
  · intro h
    obtain ⟨hgrid, hchannels⟩ := execExtr_checks_of_fault h
    refine ⟨hgrid, hchannels, or_iff_not_imp_left.mpr fun hheld => ?_⟩
    obtain ⟨header, hread⟩ := State.pixHeld.exists_readQuads (not_not.mp hheld)
    have hheader := State.headerIs_of_readQuads hread
    rw [execExtr_of_headerIs hgrid hchannels hheader] at h
    exact ⟨_, _, hheader, (extractPayload_fault_iff hheader.pixHeld _ _).mp h⟩
  · rintro ⟨hgrid, hchannels, hunread | ⟨magic, len, hheader, hrest⟩⟩
    · rw [State.pixHeld_iff_readQuads, Option.not_isSome_iff_eq_none] at hunread
      rw [execExtr, if_neg hgrid.not_gt, if_neg hchannels.not_gt, hunread]
    · rw [execExtr_of_headerIs hgrid hchannels hheader]
      exact (extractPayload_fault_iff hheader.pixHeld magic len).mpr hrest

/-- Settles O38: when each of the six commands faults. -/
theorem unwrittenPixelWhen : Obligations.UnwrittenPixelWhen := fun s =>
  ⟨fun pb => execSer_ne_fault pb s _, execDes_ne_fault s _, execPwr_fault_iff s, execPrd_fault_iff s,
    fun e => execHide_fault_iff e s, execExtr_fault_iff s⟩

theorem State.pixHeld.mono {s : State} {m n : Nat} (h : s.pixHeld n) (hle : m ≤ n) : s.pixHeld m :=
  fun k hk => h k (hk.trans_le hle)

/-- The bytes that a command reads lie in the grid, so on a loaded grid it takes no fault. -/
theorem exec_ne_fault_of_pixHeld {s : State} (h : s.pixHeld s.gridChannels) (i : Instr) :
    exec i s ≠ .fault .unwrittenPixel := by
  intro hfault
  cases i with
  | ser pb => exact execSer_ne_fault pb s _ hfault
  | des => exact execDes_ne_fault s _ hfault
  | pwr =>
    obtain ⟨-, -, hfit, hunread⟩ := (execPwr_fault_iff s).mp hfault
    exact hunread (h.mono hfit)
  | prd =>
    obtain ⟨-, hfit, -, hunread⟩ := (execPrd_fault_iff s).mp hfault
    exact hunread (h.mono hfit)
  | hide e =>
    obtain ⟨-, hfit, hunread⟩ := (execHide_fault_iff e s).mp hfault
    exact hunread (h.mono (State.hiddenQuads_le_gridChannels hfit))
  | extr =>
    obtain ⟨-, hchannels, hunread | ⟨magic, len, -, -, hfit, -, hunread⟩⟩ := (execExtr_fault_iff s).mp hfault
    · exact hunread (h.mono hchannels)
    · exact hunread (h.mono hfit)

/-- Settles O39: a command is never refused and has one fault, which it does not take on a loaded grid. -/
theorem everyCommandCompletes : Obligations.EveryCommandCompletes := by
  refine ⟨fun i s hheld => ?_, fun i s r h => not_refuses_exec i s ⟨r, h⟩, fun _ _ .unwrittenPixel _ => rfl⟩
  cases hexec : exec i s with
  | next t => exact ⟨t, rfl⟩
  | fault f =>
    cases f
    exact absurd hexec (exec_ne_fault_of_pixHeld hheld i)
  | refused r => exact absurd ⟨r, hexec⟩ (not_refuses_exec i s)

/-! ### What a command that completes leaves -/

/-- ERR = 0 as a number: STATUS bits 31:4 stay. -/
theorem State.setErr_successCode_status_toNat (s : State) :
    (s.setErr successCode).status.toNat = s.status.toNat / 16 * 16 := s.setErr_status_toNat successCode

theorem chanWrite_eq_ofNat (v : Byte) (q : Quad) : chanWrite v q = BitVec.ofNat 8 (v.toNat / 4 * 4 + q.toNat) := by
  rw [← chanWrite_toNat, BitVec.ofNat_toNat, BitVec.setWidth_eq]

theorem chanRead_eq_ofNat (v : Byte) : chanRead v = BitVec.ofNat 2 v.toNat := by
  apply BitVec.eq_of_toNat_eq
  rw [chanRead_toNat, BitVec.toNat_ofNat]

theorem quadsToByte_eq_ofNat (q0 q1 q2 q3 : Quad) : quadsToByte q0 q1 q2 q3 =
    BitVec.ofNat 8 (q0.toNat * 64 + q1.toNat * 16 + q2.toNat * 4 + q3.toNat) := by
  rw [← toNat_quadsToByte, BitVec.ofNat_toNat, BitVec.setWidth_eq]

/-- The byte that a writing pass from address 0 leaves at one of its addresses (42_lsb_embedder.md R75). -/
theorem read_of_writeQuads {m m' : Memory} {quads : List Quad} {a : Nat} {q : Quad} {v : Byte}
    (h : writeQuads m 0 quads = some m') (hq : quads[a]? = some q) (hv : Memory.read m a = some v) :
    Memory.read m' a = some (BitVec.ofNat 8 (v.toNat / 4 * 4 + q.toNat)) := by
  obtain ⟨w, hw, hw'⟩ := (writeQuads_some h).2 a q hq
  rw [Nat.zero_add] at hw hw'
  obtain rfl : w = v := Option.some.inj (hw.symm.trans hv)
  rw [hw', chanWrite_eq_ofNat]

/-- The quad that a reading pass takes from one of its bytes (42_lsb_embedder.md R76). -/
theorem getElem?_of_readQuads {m : Memory} {start n k : Nat} {quads : List Quad} {v : Byte}
    (h : readQuads m start n = some quads) (hk : k < n) (hv : Memory.read m (start + k) = some v) :
    quads[k]? = some (chanRead v) := by
  obtain ⟨w, hw, hquad⟩ := (readQuads_some h).2 k hk
  obtain rfl : w = v := Option.some.inj (hw.symm.trans hv)
  exact hquad

/-- Settles O22: past its two checks SER leaves the serialized stream, whose quads and padding are known. -/
theorem serResult : Obligations.SerResult := by
  intro pb s hpb hfit
  have hexec : exec (.ser pb) s = .next ((s.setQ (serialize s.inBuf pb)).setErr successCode) :=
    (if_neg hpb).trans (if_neg (Nat.not_lt.mpr hfit))
  exact ⟨_, hexec, rfl, State.setErr_successCode_status_toNat _,
    serialize_length s.inBuf (Nat.one_le_iff_ne_zero.mpr hpb), fun _ _ => serialize_getElem?_lane pb,
    serialize_getElem?_pad s.inBuf pb⟩

/-- Settles O24: past its two checks DES leaves the bytes of the whole groups. -/
theorem desResult : Obligations.DesResult := by
  intro s haccept hfit
  have hexec : exec .des s = .next ((s.setOut (deserialize s.q)).setErr successCode) :=
    (if_neg ((groupsAccepted_iff s).mp haccept)).trans (if_neg hfit.not_gt)
  refine ⟨_, hexec, rfl, State.setErr_successCode_status_toNat _, deserialize_length s.q,
    fun i q0 q1 q2 q3 h0 h1 h2 h3 => ?_⟩
  rw [← quadsToByte_eq_ofNat]
  exact deserialize_getElem? h0 h1 h2 h3

/-- Settles O26: past its three checks PWR's writing pass completes on bytes that hold values. -/
theorem pwrResult : Obligations.PwrResult := by
  intro s hgrid hmod hfit hheld
  obtain ⟨m, hwrite⟩ := hheld.exists_writeQuads
  have hexec : exec .pwr s = .next ((s.setPix m).setErr successCode) := by
    rw [exec, execPwr, if_neg hgrid.not_gt, if_neg (not_not.mpr hmod), if_neg hfit.not_gt, hwrite]
    rfl
  exact ⟨_, hexec, rfl, State.setErr_successCode_status_toNat _, fun _ _ _ => read_of_writeQuads hwrite,
    fun a ha => (writeQuads_some hwrite).1 a (.inr (by omega))⟩

/-- Settles O28: past its three checks PRD's reading pass completes on bytes that hold values. -/
theorem prdResult : Obligations.PrdResult := by
  intro s hgrid hfit hmax hheld
  obtain ⟨quads, hread⟩ := hheld.exists_readQuads
  have hexec : exec .prd s = .next ((s.setQ quads).setErr successCode) := by
    rw [exec, execPrd, if_neg hgrid.not_gt, if_neg hfit.not_gt, if_neg hmax.not_gt, hread]
    rfl
  refine ⟨_, hexec, rfl, State.setErr_successCode_status_toNat _, (readQuads_some hread).1, fun k v hk hv => ?_⟩
  rw [← chanRead_eq_ofNat]
  exact getElem?_of_readQuads hread hk (by rwa [Nat.zero_add])

/-- The byte that HIDE leaves at an address of its frame, in the numbers of the statement. -/
theorem read_of_writeQuads_frame {m m' : Memory} {magic : Word} {payload : List Byte} {a : Nat} {v : Byte}
    (h : writeQuads m 0 (serialize (buildFrameLSB magic payload) 3) = some m') (hlen : payload.length < 2 ^ 64)
    (ha : a < hiddenQuads payload.length) (hv : Memory.read m a = some v) :
    Memory.read m' a = some (BitVec.ofNat 8 (v.toNat / 4 * 4 + hiddenQuad magic payload a)) := by
  have hquad : (BitVec.ofNat 2 (hiddenQuad magic payload a)).toNat = hiddenQuad magic payload a :=
    Nat.mod_eq_of_lt (hiddenQuad_lt magic payload a)
  rw [read_of_writeQuads h (serialize_frame_getElem? magic payload hlen a ha) hv, hquad]

/-- Settles O30: past its two checks HIDE's writing pass completes and leaves the frame quad by quad. -/
theorem hideResult : Obligations.HideResult := by
  intro e s hgrid hfits hheld
  rw [← serialize_frame_length (magicFor e)] at hheld
  obtain ⟨m, hwrite⟩ := hheld.exists_writeQuads
  have hlen : s.inBuf.length < 2 ^ 64 := State.lt_of_framedSize_le_cap hfits
  refine ⟨s.hidden e m, execHide_of_writeQuads hgrid hfits hwrite, rfl, rfl, Nat.mod_eq_of_lt hlen,
    State.setEncf_setErr_status_toNat _ e successCode, fun _ _ => read_of_writeQuads_frame hwrite hlen, fun a ha => ?_⟩
  rw [← serialize_frame_length (magicFor e)] at ha
  exact (writeQuads_some hwrite).1 a (.inr (by omega))

/-- The byte of OUT that EXTR packs from four bytes of the payload, in the numbers of the statement. -/
theorem deserialize_getElem?_of_readQuads {m : Memory} {start n i : Nat} {quads : List Quad} {v0 v1 v2 v3 : Byte}
    (h : readQuads m start (4 * n) = some quads) (hi : i < n) (h0 : Memory.read m (start + 4 * i) = some v0)
    (h1 : Memory.read m (start + (4 * i + 1)) = some v1) (h2 : Memory.read m (start + (4 * i + 2)) = some v2)
    (h3 : Memory.read m (start + (4 * i + 3)) = some v3) :
    (deserialize quads)[i]? = some (BitVec.ofNat 8
      (v0.toNat % 4 * 64 + v1.toNat % 4 * 16 + v2.toNat % 4 * 4 + v3.toNat % 4)) := by
  have hbyte := deserialize_getElem? (getElem?_of_readQuads h (by omega) h0) (getElem?_of_readQuads h (by omega) h1)
    (getElem?_of_readQuads h (by omega) h2) (getElem?_of_readQuads h (by omega) h3)
  rw [hbyte, quadsToByte_eq_ofNat, chanRead_toNat, chanRead_toNat, chanRead_toNat, chanRead_toNat]

/-- STATUS after an EXTR that succeeded: ENCF is the magic's encryption flag and ERR is 0. -/
theorem State.extracted_status_toNat (s : State) (magic : Word) (len : DWord) (quads : List Quad) :
    (s.extracted magic len quads).status.toNat =
      s.status.toNat / 32 * 32 + (if magic = 0x1337C0DE#32 then 16 else 0) := by
  have hstatus : (s.extracted magic len quads).status.toNat =
      s.status.toNat / 32 * 32 + (if encOf magic = true then 16 else 0) :=
    State.setEncf_setErr_status_toNat _ (encOf magic) successCode
  rw [hstatus]
  simp only [encOf_iff, magicEncryptedLSB]

/-- Settles O32: past its checks EXTR's second reading pass completes and leaves the payload. -/
theorem extrResult : Obligations.ExtrResult := by
  intro s magic len hgrid hchannels hheader hmagic hfits hmax hheld
  obtain ⟨quads, hread⟩ := Option.isSome_iff_exists.mp ((State.pixHeld_add_iff hheader.pixHeld _).mp hheld)
  have hexec : exec .extr s = .next (s.extracted magic len quads) :=
    (execExtr_of_headerIs hgrid hchannels hheader).trans
      (extractPayload_of_readQuads ((isLSBMagic_iff magic).mpr hmagic) hfits hmax hread)
  refine ⟨_, hexec, rfl, s.extracted_status_toNat magic len quads, ?_, fun i v0 v1 v2 v3 hi h0 h1 h2 h3 => ?_⟩
  · have hout : (s.extracted magic len quads).out = deserialize quads := rfl
    rw [hout, deserialize_length, (readQuads_some hread).1]
    omega
  · refine deserialize_getElem?_of_readQuads hread hi h0 ?_ ?_ ?_
    · rw [← h1]; congr 1; omega
    · rw [← h2]; congr 1; omega
    · rw [← h3]; congr 1; omega

end Sys2Proof.Machine
end

section
/-! The statement about the flags (10_state.md section 5; 60_exceptions.md section 3): a command's outcome from two states
that differ in STATUS alone. -/

namespace Sys2Proof.Machine

/-- s with another STATUS. -/
def State.withStatus (s : State) (st : Word) : State := { s with status := st }

@[simp] theorem State.withStatus_pix (s : State) (st : Word) : (s.withStatus st).pix = s.pix := rfl

@[simp] theorem State.withStatus_q (s : State) (st : Word) : (s.withStatus st).q = s.q := rfl

@[simp] theorem State.withStatus_qcnt (s : State) (st : Word) : (s.withStatus st).qcnt = s.qcnt := rfl

@[simp] theorem State.withStatus_inBuf (s : State) (st : Word) : (s.withStatus st).inBuf = s.inBuf := rfl

/-- t and u end one command alike, from s and from s with STATUS st: they differ in STATUS alone and have one ERR, and
ENCF is kept in both or the same in both. -/
structure EndAlike (s : State) (st : Word) (t u : State) : Prop where
  rest : u = { t with status := u.status }
  err : u.err = t.err
  encf : (t.encf = s.encf ∧ u.encf = st.getLsbD 4) ∨ u.encf = t.encf

/-- Two outcomes of one command, from s and from s with STATUS st, that are alike. -/
inductive AlikeOutcomes (s : State) (st : Word) : Out → Out → Prop where
  | next {t u : State} : EndAlike s st t u → AlikeOutcomes s st (.next t) (.next u)
  | fault (f : Fault) : AlikeOutcomes s st (.fault f) (.fault f)

/-- An ending that writes ERR and keeps ENCF. -/
theorem AlikeOutcomes.setErr (s t : State) (st : Word) (ht : t.encf = s.encf) (c : BitVec 4) :
    AlikeOutcomes s st (.next (t.setErr c)) (.next ((t.withStatus st).setErr c)) := by
  refine .next ⟨rfl, ?_, .inl ⟨?_, ?_⟩⟩
  · rw [State.err_setErr, State.err_setErr]
  · rw [State.encf_setErr, ht]
  · rw [State.encf_setErr]
    rfl

theorem AlikeOutcomes.raise (s : State) (st : Word) (kind : ErrorKind) :
    AlikeOutcomes s st (raise kind s) (raise kind (s.withStatus st)) :=
  .setErr s s st rfl kind.code

/-- An ending that writes ENCF and ERR. -/
theorem AlikeOutcomes.setEncf_setErr (s t : State) (st : Word) (e : Bool) (c : BitVec 4) :
    AlikeOutcomes s st (.next ((t.setEncf e).setErr c)) (.next (((t.withStatus st).setEncf e).setErr c)) := by
  refine .next ⟨rfl, ?_, .inr ?_⟩
  · rw [State.err_setErr, State.err_setErr]
  · rw [State.encf_setErr, State.encf_setErr, State.encf_setEncf, State.encf_setEncf]

/-- A check that does not read STATUS goes the same way in both. -/
theorem AlikeOutcomes.ite {s : State} {st : Word} {p : Prop} [Decidable p] {o o' r r' : Out}
    (ho : AlikeOutcomes s st o o') (hr : AlikeOutcomes s st r r') :
    AlikeOutcomes s st (if p then o else r) (if p then o' else r') := by
  split
  · exact ho
  · exact hr

theorem execSer_alike (pb : Nat) (s : State) (st : Word) :
    AlikeOutcomes s st (execSer pb s) (execSer pb (s.withStatus st)) :=
  .ite (.raise s st _) (.ite (.raise s st _) (.setErr s (s.setQ (serialize s.inBuf pb)) st rfl _))

theorem execDes_alike (s : State) (st : Word) : AlikeOutcomes s st (execDes s) (execDes (s.withStatus st)) :=
  .ite (.raise s st _) (.ite (.raise s st _) (.setErr s (s.setOut (deserialize s.q)) st rfl _))

theorem execPwr_alike (s : State) (st : Word) : AlikeOutcomes s st (execPwr s) (execPwr (s.withStatus st)) := by
  refine .ite (.raise s st _) (.ite (.raise s st _) (.ite (.raise s st _) ?_))
  rw [State.withStatus_pix, State.withStatus_q]
  cases writeQuads s.pix 0 s.q with
  | none => exact .fault _
  | some m => exact .setErr s (s.setPix m) st rfl _

theorem execPrd_alike (s : State) (st : Word) : AlikeOutcomes s st (execPrd s) (execPrd (s.withStatus st)) := by
  refine .ite (.raise s st _) (.ite (.raise s st _) (.ite (.raise s st _) ?_))
  rw [State.withStatus_pix, State.withStatus_qcnt]
  cases readQuads s.pix 0 s.qcnt.toNat with
  | none => exact .fault _
  | some quads => exact .setErr s (s.setQ quads) st rfl _

theorem execHide_alike (e : Bool) (s : State) (st : Word) :
    AlikeOutcomes s st (execHide e s) (execHide e (s.withStatus st)) := by
  refine .ite (.raise s st _) (.ite (.raise s st _) ?_)
  rw [State.withStatus_pix, State.withStatus_inBuf]
  cases writeQuads s.pix 0 (serialize (buildFrameLSB (magicFor e) s.inBuf) 3) with
  | none => exact .fault _
  | some m => exact .setEncf_setErr s ((s.setPix m).setFrame (magicFor e) (BitVec.ofNat 64 s.inBuf.length)) st e _

theorem extractPayload_alike (magic : Word) (len : DWord) (s : State) (st : Word) :
    AlikeOutcomes s st (extractPayload magic len s) (extractPayload magic len (s.withStatus st)) := by
  refine .ite (.raise s st _) (.ite (.raise s st _) (.ite (.raise s st _) ?_))
  rw [State.withStatus_pix]
  cases readQuads s.pix 48 (4 * len.toNat) with
  | none => exact .fault _
  | some quads => exact .setEncf_setErr s ((s.setOut (deserialize quads)).setFrame magic len) st (encOf magic) _

theorem execExtr_alike (s : State) (st : Word) : AlikeOutcomes s st (execExtr s) (execExtr (s.withStatus st)) := by
  refine .ite (.raise s st _) (.ite (.raise s st _) ?_)
  rw [State.withStatus_pix]
  cases readQuads s.pix 0 48 with
  | none => exact .fault _
  | some header => exact extractPayload_alike _ _ s st

theorem exec_alike (i : Instr) (s : State) (st : Word) :
    AlikeOutcomes s st (exec i s) (exec i (s.withStatus st)) := by
  cases i with
  | ser pb => exact execSer_alike pb s st
  | des => exact execDes_alike s st
  | pwr => exact execPwr_alike s st
  | prd => exact execPrd_alike s st
  | hide e => exact execHide_alike e s st
  | extr => exact execExtr_alike s st

theorem AlikeOutcomes.of_next {s t : State} {st : Word} {o : Out} (h : AlikeOutcomes s st (.next t) o) :
    ∃ u, o = .next u ∧ EndAlike s st t u := by
  cases h with
  | next hend => exact ⟨_, rfl, hend⟩

theorem AlikeOutcomes.of_fault {s : State} {st : Word} {f : Fault} {o : Out} (h : AlikeOutcomes s st (.fault f) o) :
    o = .fault f := by
  cases h with
  | fault => rfl

/-- Settles O37: the outcomes of `exec_alike`, an ending and a fault. -/
theorem noCommandReadsFlags : Obligations.NoCommandReadsFlags := by
  intro i s st
  have halike := exec_alike i s st
  refine ⟨fun t h => ?_, fun f h => ?_⟩
  · rw [h] at halike
    obtain ⟨u, hu, hrest, herr, hencf⟩ := halike.of_next
    exact ⟨u, hu, hrest, herr, hencf⟩
  · rw [h] at halike
    exact halike.of_fault

end Sys2Proof.Machine
end

section
/-! The statements about the raster map (20_memory.md section 3) and about the registers, buffers and pixels that the host
reads and writes (10_state.md sections 2, 4 and 7). -/

namespace Sys2Proof.Machine

/-! ### The raster map -/

/-- Pixel number p in raster order has address 3·p, and its channels follow (20_memory.md R40). -/
theorem pixAddr_div_mod (w p c : Nat) : pixAddr w (p % w) (p / w) c = 3 * p + c := by
  rw [pixAddr, Nat.div_add_mod']

/-- Settles O19: the pixel's address undoes the division by the width, and the channel the one by 3. -/
theorem rasterAddressIsQuadIndex : Obligations.RasterAddressIsQuadIndex := by
  intro w h k hk
  have hpixel : k / 3 < w * h := by
    rw [Nat.mul_assoc] at hk
    omega
  have hwidth : 0 < w := Nat.pos_of_mul_pos_right (Nat.zero_lt_of_lt hpixel)
  refine ⟨?_, pixAddr_div_mod w (k / 3) (k % 3), Nat.mod_lt _ hwidth, Nat.div_lt_of_lt_mul hpixel,
    Nat.mod_lt _ (by decide)⟩
  rw [rasterAddr, pixAddr_div_mod, Nat.div_add_mod]

/-! ### Register reads -/

/-- Every readable register is at most 64 bits wide (10_state.md R17). -/
theorem registerValue_lt {i v : Nat} {s : State} (h : registerValue i s = some v) : v < 2 ^ 64 := by
  match i with
  | 1 | 2 | 3 | 5 =>
    obtain rfl := Option.some.inj h
    exact (BitVec.isLt _).trans (by decide)
  | 4 | 6 | 8 | 9 | 10 =>
    obtain rfl := Option.some.inj h
    exact BitVec.isLt _
  | 7 =>
    obtain rfl := Option.some.inj h
    exact s.cap_lt
  | 0 | n + 11 => simp [registerValue] at h

theorem performAction_readReg {i v : Nat} {s : State} (h : registerValue i s = some v) :
    performAction (.readReg i) s = .next (s.reply (.register i v)) := by
  simp only [performAction, hostReadReg, h]

/-- Settles O51: the stored registers, the computed ones, and the reply of a read. -/
theorem hostRegisterReads : Obligations.HostRegisterReads := fun s =>
  ⟨rfl, rfl, rfl, rfl, rfl, rfl, registerValue_cap s, registerValue_inLen, registerValue_qLen, registerValue_outLen,
    fun _ _ h => ⟨registerValue_lt h, performAction_readReg h⟩⟩

/-- Settles O52: CAP is computed from the grid and fits its register. -/
theorem capRegister : Obligations.CapRegister :=
  ⟨fun s => ⟨registerValue_cap s, s.cap_lt⟩, registerValue_cap State.reset⟩

/-! ### Buffers and pixels -/

theorem performAction_writePix {a : Nat} {s : State} (v : Byte) (h : a < 3 * s.config.maxPix) :
    performAction (.writePix a v) s = .next (s.setPix (Memory.write s.pix a v)) := if_pos h

theorem performAction_readPix_some {a : Nat} {v : Byte} {s : State} (h : a < 3 * s.config.maxPix)
    (hv : Memory.read s.pix a = some v) : performAction (.readPix a) s = .next (s.reply (.pixel a v)) := by
  simp only [performAction, hostReadPix, if_pos h, hv]

theorem performAction_readPix_none {a : Nat} {s : State} (h : a < 3 * s.config.maxPix)
    (hv : Memory.read s.pix a = none) : performAction (.readPix a) s = .fault .unwrittenPixel := by
  simp only [performAction, hostReadPix, if_pos h, hv]

/-- Settles O55: each access within its bound, and the pixel memory's law of reading after a write. -/
theorem hostLoadsAndPixels : Obligations.HostLoadsAndPixels := fun s =>
  ⟨fun _ hfit => if_pos hfit, fun _ hfit => if_pos hfit,
    fun a v ha => ⟨_, performAction_writePix v ha, rfl, Memory.read_write_same s.pix a v,
      fun _ hne => Memory.read_write_ne s.pix v hne.symm⟩,
    fun _ _ => performAction_readPix_some, fun _ => performAction_readPix_none, rfl, rfl, rfl⟩

end Sys2Proof.Machine
end
